-- ==== Sys2Proof/Word.lean ====
section
/-! DEFINITION. The words of `rolling_hash_engine`: their widths (00_scope.md R6) and the two formats of
30_encoding.md (R39 `CMD`, R44 `SEQ`). -/

namespace Sys2Proof

/-- A message byte, an accumulator value or a character code: `BYTEW = ACCW = 8` (R6, R45). -/
abbrev Byte := BitVec 8

/-- A coefficient: `COEFW = 5` (R6, R17). -/
abbrev Coef := BitVec 5

/-- A command word on `cmd_i`: `CMDW = 11` (R6, R39). -/
abbrev CmdWord := BitVec 11

/-- The 3-bit select word `{busy, more, lastp}` (R44). -/
abbrev SelWord := BitVec 3

/-- The eight accumulators `H[0..7]` (R11), or any sequence of eight accumulator values (R50). -/
abbrev Accs := Vector Byte 8

/-- The two formats of opcode_table.json: a command word the host presents (R39), or the select word the
sequencer computes from the state (R44). -/
inductive Format where
  | cmd
  | seq
  deriving DecidableEq, Repr

/-- A word that selects an instruction, in its format. -/
inductive FetchWord where
  | cmd (w : CmdWord)
  | sel (w : SelWord)
  deriving DecidableEq, Repr

end Sys2Proof
end

