-- ==== Sys2Proof/Config.lean ====
section
/-! DEFINITION. What an implementation fixes and what the spec leaves free: the constants of 00_scope.md R5, the open
parameter `MSG_CAP` (R6, D3, U10) and the free values of the result ports outside `DONE` (R20, U6). -/

namespace Sys2Proof

/-- The number of accumulators and of passes (R5). -/
abbrev Config.NPOS : Nat := 8

/-- The modulus of the reduction: 255, not 256 (R5). -/
abbrev Config.MOD : Nat := 255

/-- The number of characters of the digest string (R5). -/
abbrev Config.NCHAR : Nat := 16

/-- `MSG_CAP - 1`, for the open parameter `MSG_CAP >= 1` (R6, D3). No body: nothing can be proved of its value
(DESIGN CHOICE of the form, log 5). -/
opaque Config.msgCapPred : Nat

/-- `MSG_CAP`, the capacity of the message buffer: any natural number `>= 1` (R6, U10). -/
def Config.MSG_CAP : Nat := Config.msgCapPred + 1

/-- `LENW = ceil(log2(MSG_CAP + 1))`, the width of `LEN` and `K` (R6). -/
def Config.LENW : Nat := Nat.clog 2 (Config.MSG_CAP + 1)

/-- The value sampling number `n` draws from `dig_o` when `ST` is not `DONE`: a free value (R20, R83, U6; log 8). -/
opaque Config.freeDigO : Nat → BitVec 64

/-- The value sampling number `n` draws from `hex_o` when `ST` is not `DONE`: a free value (R20, R83, U6; log 8). -/
opaque Config.freeHexO : Nat → BitVec 128

end Sys2Proof
end

