-- ==== Sys2Proof/Syntax.lean ====
section
/-! DEFINITION. The instructions: the five host commands (R41) and the rows of the sequencer's selection (R44), one
constructor per row of opcode_table.json, in the table's order. -/

namespace Sys2Proof

/-- An instruction of the block (00_scope.md R1: "the five host commands ... and the three sequencer
micro-operations"), with `HOLD` for the row of R58. -/
inductive Instr where
  /-- `NOP`, do nothing (R78). -/
  | nop
  /-- `RST`, soft reset (R79). -/
  | rst
  /-- `CLRM`, clear the message (R80). -/
  | clrm
  /-- `LDB b`, append one byte to the message (R81); `b = cmd_i[7:0]` (R40). -/
  | ldb (b : Byte)
  /-- `GO`, start a run on the current message (R82). -/
  | go
  /-- `FOLD`, fold one message byte into accumulator `P` (R59). -/
  | fold
  /-- `NEXT`, go to the next pass (R60). -/
  | next
  /-- `FIN`, end the run (R61). -/
  | fin
  /-- `HOLD`, the sequencer takes no step (R58). -/
  | hold
  deriving DecidableEq, Repr

end Sys2Proof
end

