-- ==== Sys2Proof/WellFormed.lean ====
section
/-! DEFINITION. Which instruction stands in which format. The one operand, the byte of `LDB`, is 8 bits wide by its type
(R40, R86), so no operand can be out of range; what can be ill-formed is an instruction in the wrong format: "The
micro-operations are not presented by anyone" (R44). -/

namespace Sys2Proof

/-- The format of the instruction's row in opcode_table.json. -/
def Instr.format : Instr → Format
  | .nop => .cmd
  | .rst => .cmd
  | .clrm => .cmd
  | .ldb _ => .cmd
  | .go => .cmd
  | .fold => .seq
  | .next => .seq
  | .fin => .seq
  | .hold => .seq

/-- An instruction is well formed in a format when its row has that format: a command on the command port (R41), a
micro-operation in the select word (R44). -/
def Instr.wellFormedIn (f : Format) (i : Instr) : Bool := i.format == f

end Sys2Proof
end

