-- ==== Sys2Proof/Decode.lean ====
section
/-! DEFINITION. The decoder, total on every word and rejecting by name (R41, R42, R44), and after it the encoder, written from
the same tables. -/

namespace Sys2Proof

/-- Why a word is no instruction (R42). -/
inductive DecodeError where
  /-- R42 (a): `op` in `101, 110, 111`. -/
  | reservedOpcode (op : BitVec 3)
  /-- R42 (b): `op` in `000, 001, 010, 100` with `imm8 != 0`. -/
  | immediateNotZero (op : BitVec 3) (imm8 : Byte)
  deriving DecidableEq, Repr

/-- The field `op`, bits 10:8 (R39). -/
def opField (w : CmdWord) : BitVec 3 := w.extractLsb' 8 3

/-- The field `imm8`, bits 7:0 (R39). -/
def imm8Field (w : CmdWord) : Byte := w.extractLsb' 0 8

/-- The command without operand that `op` names, if it names one (R41). -/
def commandOfOp (op : BitVec 3) : Option Instr :=
  if op = 0b000#3 then some .nop
  else if op = 0b001#3 then some .rst
  else if op = 0b010#3 then some .clrm
  else if op = 0b100#3 then some .go
  else none

/-- The command a word of `cmd_i` stands for; every word of no row of R41 is illegal (R42). It does not depend on the
state (R43). -/
def decodeCommand (w : CmdWord) : Except DecodeError Instr :=
  if opField w = 0b011#3 then .ok (.ldb (imm8Field w))
  else
    match commandOfOp (opField w) with
    | some i => if imm8Field w = 0#8 then .ok i else .error (.immediateNotZero (opField w) (imm8Field w))
    | none => .error (.reservedOpcode (opField w))

/-- The micro-operation a select word selects: `0xx` `HOLD`, `11x` `FOLD`, `101` `FIN`, `100` `NEXT` (R44). -/
def decodeSelect (w : SelWord) : Instr :=
  if w.getLsbD 2 then
    if w.getLsbD 1 then .fold
    else if w.getLsbD 0 then .fin
    else .next
  else .hold

/-- The decoder over both formats. -/
def decode : FetchWord → Except DecodeError Instr
  | .cmd w => decodeCommand w
  | .sel w => .ok (decodeSelect w)

/-- The word whose bits are `w`, given in `nbits` bits: at most 8 bits are a select word, more than 8 and at most 16
a command word (log 14). A bit above the format's width must be 0, else there is no such word. -/
def fetchWordOfTable (nbits w : Nat) : Option FetchWord :=
  if nbits ≤ 8 then
    if w < 8 then some (.sel (BitVec.ofNat 3 w)) else none
  else if nbits ≤ 16 then
    if w < 2048 then some (.cmd (BitVec.ofNat 11 w)) else none
  else none

/-- What the decoder reads from a row's word, `none` where it refuses. -/
def decodeTableWord (nbits w : Nat) : Option Instr :=
  match fetchWordOfTable nbits w with
  | some f => (decode f).toOption
  | none => none

/-- A word of the `CMD` format from its two fields (R39). -/
def cmdWord (op : BitVec 3) (imm8 : Byte) : CmdWord := op ++ imm8

/-- The encoder. The don't-care bits of the select words `11x` and `0xx` (R44) are encoded as 0 (log 14). -/
def encode : Instr → FetchWord
  | .nop => .cmd (cmdWord 0b000#3 0#8)
  | .rst => .cmd (cmdWord 0b001#3 0#8)
  | .clrm => .cmd (cmdWord 0b010#3 0#8)
  | .ldb b => .cmd (cmdWord 0b011#3 b)
  | .go => .cmd (cmdWord 0b100#3 0#8)
  | .fold => .sel 0b110#3
  | .next => .sel 0b100#3
  | .fin => .sel 0b101#3
  | .hold => .sel 0b000#3

/-- One row of opcode_table.json: a word `w` is of the row iff `w & mask = value` (R41, R44). -/
structure OpRow where
  format : Format
  mask : Nat
  value : Nat
  deriving DecidableEq, Repr

/-- The row of each instruction, transcribed from R41 and R44. -/
def opRow : Instr → OpRow
  | .nop => ⟨.cmd, 0x7FF, 0x000⟩
  | .rst => ⟨.cmd, 0x7FF, 0x100⟩
  | .clrm => ⟨.cmd, 0x7FF, 0x200⟩
  | .ldb _ => ⟨.cmd, 0x700, 0x300⟩
  | .go => ⟨.cmd, 0x7FF, 0x400⟩
  | .fold => ⟨.seq, 0b110, 0b110⟩
  | .next => ⟨.seq, 0b111, 0b100⟩
  | .fin => ⟨.seq, 0b111, 0b101⟩
  | .hold => ⟨.seq, 0b100, 0b000⟩

/-- The word is one of the row's. -/
def OpRow.admits (r : OpRow) : FetchWord → Bool
  | .cmd w => r.format == .cmd && (w.toNat &&& r.mask) == r.value
  | .sel w => r.format == .seq && (w.toNat &&& r.mask) == r.value

end Sys2Proof
end

