-- ==== Sys2Proof/Machine/Digest.lean ====
section
/-! DEFINITION. The digest engine as pure functions: the coefficient ROM (R17, R53), the fold (R54, R55), the contract
`DigestAcc` (R50 to R52), and beside it the byte-major program (R66) and the multipliers (R65) that the spec speaks of. -/

namespace Sys2Proof.Machine

/-- `COEF[0..7]`, the coefficient ROM (R17). -/
def COEF : Vector Coef 8 := #v[2#5, 3#5, 5#5, 7#5, 11#5, 13#5, 17#5, 19#5]

/-- The coefficient of pass `i`, read from the ROM with the pass index as address (R53). -/
def coefAt (i : Fin 8) : Coef := COEF[i]

/-- The fold (R54): the sum in 9 bits, the product in 14 bits, both exact, and the remainder modulo 255. -/
def fold (prev b : Byte) (c : Coef) : Byte :=
  let s : BitVec 9 := prev.zeroExtend 9 + b.zeroExtend 9
  let t : BitVec 14 := s.zeroExtend 14 * c.zeroExtend 14
  BitVec.ofNat 8 (t.toNat % Config.MOD)

/-- The reduction of R56, informative there: `t = 256 * a + d`, the sum `a + d` folded once more if it passes 255, and
255 mapped to 0. The fold uses the mathematical remainder, as R56 says a model should. -/
def reduceByFolding (t : Nat) : Nat :=
  let u := t / 256 + t % 256
  let v := if 256 ≤ u then u - 255 else u
  if v = 255 then 0 else v

/-- All eight accumulators 0: the empty-input policy (R52). -/
def zeroAccs : Accs := Vector.replicate 8 0#8

/-- The operand `prev` of position `i`: `H[i-1]`, and 0 for position 0 (R50, R59 corner case (i)). -/
def prevAcc (h : Accs) (i : Fin 8) : Byte :=
  if i.val = 0 then 0#8 else h[i.val - 1]

/-- One inner iteration of R50: overwrite accumulator `i` from byte `b`. -/
def foldAt (i : Fin 8) (h : Accs) (b : Byte) : Accs :=
  h.set i.val (fold (prevAcc h i) b (coefAt i))

/-- The positions 0 to 7 in increasing order. -/
def positions : List (Fin 8) := [0, 1, 2, 3, 4, 5, 6, 7]

/-- Pass `i` over the whole message (R51). -/
def pass (S : List Byte) (h : Accs) (i : Fin 8) : Accs := S.foldl (foldAt i) h

/-- `DigestAcc(S)` (R50): position-major, one pass per position, from zeros. -/
def digestAcc (S : List Byte) : Accs := positions.foldl (pass S) zeroAccs

/-- The byte-major program of R66. -/
def digestByteMajor (S : List Byte) : Accs :=
  S.foldl (fun h b => positions.foldl (fun h i => foldAt i h b) h) zeroAccs

/-- The multipliers `M` of R65, as its formula defines them: `M[0] = COEF[0]`,
`M[i] = ((M[i-1] + 1) * COEF[i]) mod 255`. -/
def multiplier : Nat → Nat
  | 0 => (COEF.toList.getD 0 0#5).toNat
  | i + 1 => ((multiplier i + 1) * (COEF.toList.getD (i + 1) 0#5).toNat) % Config.MOD

end Sys2Proof.Machine
end

