-- ==== Sys2Proof/Machine/Memory.lean ====
section
/-! DEFINITION. The message buffer `MSG` as plain data: a list of cells with strictly rising addresses (10_state.md R18,
20_memory.md R25 to R30). An address that is not listed has never been written. -/

namespace Sys2Proof.Machine

/-- The cells of `MSG` that have been written, in rising order of their addresses. -/
abbrev Memory := List Host.Cell

/-- What a cell reads as that nothing has written since power-up: no value (R24 "at power-up: unspecified", U7;
DESIGN CHOICE, log 7). -/
def unlistedCell : Option Byte := none

/-- The content of cell `a`, `unlistedCell` where nothing has written it. -/
def Memory.read : Memory → Nat → Option Byte
  | [], _ => unlistedCell
  | c :: m, a => if a = c.1 then some c.2 else Memory.read m a

/-- The memory with cell `a` set to `v` and every other cell as it was (R27). -/
def Memory.write : Memory → Nat → Byte → Memory
  | [], a, v => [(a, v)]
  | c :: m, a, v =>
    if a < c.1 then (a, v) :: c :: m
    else if a = c.1 then (a, v) :: m
    else c :: Memory.write m a v

/-- Every listed address is above `a`. -/
def Memory.above (a : Nat) (m : Memory) : Bool := m.all fun c => decide (a < c.1)

/-- The canonical form: strictly rising addresses. (No entry can equal what an unlisted address reads as, since that
is no value.) -/
def Memory.wf : Memory → Bool
  | [] => true
  | c :: m => Memory.above c.1 m && Memory.wf m

end Sys2Proof.Machine
end

