-- ==== Sys2Proof/Machine/State.lean ====
section
/-! DEFINITION. The state of the block (10_state.md: `H`, `P`, `K`, `LEN`, `ST`, `ECAUSE`, `MSG`), the schedule of the
agents' coming moves, the reasons the model can stop, and the state after reset (R24). -/

namespace Sys2Proof.Machine

/-- `ST`, the status register: four values, no other encoding exists (R14). -/
inductive Status where
  /-- No run in progress, no valid digest; the host may change the message. -/
  | idle
  /-- A run is in progress. -/
  | busy
  /-- The last run completed and the message has not changed since. -/
  | done
  /-- A fault was taken; absorbing until `RST` or reset. -/
  | fault
  deriving DecidableEq, Repr

/-- `ECAUSE`, the fault cause register (R15, R85). -/
inductive Cause where
  | eNone
  | eIllCmd
  | eBusy
  | eOvf
  deriving DecidableEq, Repr

/-- One presentation of the input pins by the host (R19): `rst_i`, `cmd_valid_i` and `cmd_i`. -/
structure HostPins where
  rst : Bool
  cmdValid : Bool
  cmd : CmdWord
  deriving DecidableEq, Repr

/-- One entry of the schedule: which agent moves, and with what inputs (R9). -/
inductive Event where
  /-- `HOST` presents the pins (R19, R77, R99). -/
  | host (pins : HostPins)
  /-- `SEQ` has the turn (R57, R58). -/
  | seq
  /-- The host waits: it issues nothing, and `SEQ` moves, until `ST != BUSY` (R49 `wait`, R102; log 3). -/
  | wait
  deriving DecidableEq, Repr

/-- Why the model stops with a fault of its own. None is a fault of the block: those are statuses (R88). -/
inductive Fault where
  /-- Raised by `FOLD` when the cell it reads has never been written. R26 defines the read only for cells of the
  message; no run reaches this (R23 (v)). Safe (log 7). -/
  | msgCellUnwritten
  /-- Raised by `LDB` when `LEN` is above `MSG_CAP`, so that the address it appends at does not exist (R27). No run
  reaches this (R23 (ii)). Safe (log 12). -/
  | msgAddressAbsent
  deriving DecidableEq, Repr

/-- Why the model has no meaning to give. -/
inductive Refusal where
  /-- Raised by `exec` for an instruction without a meaning; no arm does so. Safe. -/
  | notModelled (mnemonic : String)
  /-- Raised by `exec` of `FOLD`, `NEXT`, `FIN` or `HOLD` in a state whose select word does not select it: the spec has
  no such step (R57, R58). No step of the machine does so. Safe (log 9). -/
  | microOpNotSelected
  deriving DecidableEq, Repr

/-- The state: the seven pieces the spec gives the block (10_state.md) and the model's own schedule. -/
structure State where
  /-- `H[0..7]`, the accumulators (R11). -/
  h : Accs
  /-- `P`, the pass index, 3 bits (R13). -/
  p : Fin 8
  /-- `K`, the index of the next message byte in the pass (R13). -/
  k : Nat
  /-- `LEN`, the message length in bytes (R16). -/
  len : Nat
  /-- `ST`, the status (R14). -/
  st : Status
  /-- `ECAUSE`, the fault cause (R15). -/
  ecause : Cause
  /-- `MSG`, the message buffer (R18). -/
  msg : Memory
  /-- The agents' coming moves, first move first (R9; the model's own field, log 1). -/
  sched : List Event
  deriving DecidableEq, Repr

/-- The state after the reset event at power-up (R24): zero registers, `IDLE`, no cell of `MSG` written, and no move
listed. -/
def State.reset : State where
  h := Vector.replicate 8 0#8
  p := 0
  k := 0
  len := 0
  st := .idle
  ecause := .eNone
  msg := []
  sched := []

/-- The three outcomes of a step over this state. -/
abbrev Result := Host.Outcome State Fault Refusal

end Sys2Proof.Machine
end

