-- ==== Sys2Proof/Machine/Flags.lean ====
section
/-! DEFINITION. The codes of `ST` and `ECAUSE`, the decodes of `ST`, and the select word. The block has no condition codes
(R21): these are all its flags. -/

namespace Sys2Proof.Machine

/-- The 2-bit code of `ST` (R14). -/
def Status.code : Status → BitVec 2
  | .idle => 0b00#2
  | .busy => 0b01#2
  | .done => 0b10#2
  | .fault => 0b11#2

/-- The 2-bit code of `ECAUSE` (R15, R85). -/
def Cause.code : Cause → BitVec 2
  | .eNone => 0#2
  | .eIllCmd => 1#2
  | .eBusy => 2#2
  | .eOvf => 3#2

/-- `ST = BUSY`: the flag `busy_o` (R20) and bit `busy` of the select word (R44). -/
def State.busy (s : State) : Bool := s.st == .busy

/-- `ST = DONE`: the flag `done_o` (R20). -/
def State.done (s : State) : Bool := s.st == .done

/-- `ST = FAULT`: the flag `fault_o` (R20). -/
def State.faulted (s : State) : Bool := s.st == .fault

/-- `K < LEN`: bit `more` of the select word (R44). -/
def State.more (s : State) : Bool := decide (s.k < s.len)

/-- `P = 7`: bit `lastp` of the select word (R44). -/
def State.lastp (s : State) : Bool := s.p == 7

/-- The select word `{busy, more, lastp}` (R44). -/
def State.selectWord (s : State) : SelWord :=
  BitVec.ofBool s.busy ++ BitVec.ofBool s.more ++ BitVec.ofBool s.lastp

end Sys2Proof.Machine
end

