-- ==== Sys2Proof/Machine/Ops.lean ====
section
/-! DEFINITION. The shared operations over the state: memory access (R26, R27), fault entry and the way out of it (R88, R89),
the register writes of the commands and micro-operations, the gate every message command passes (R77), and the gate every
micro-operation passes (R57). -/

namespace Sys2Proof.Machine

/-- `MemRead(MSG, a, 1)`: defined only for `a < LEN`, without side effect (R26). -/
def State.memRead (s : State) (a : Nat) : Option Byte :=
  if a < s.len then s.msg.read a else none

/-- `MemWrite(MSG, a, 1, v)` in a buffer of `cap` cells: sets cell `a` and no other; defined only for `a < cap`
(R27). -/
def State.memWrite (cap : Nat) (s : State) (a : Nat) (v : Byte) : Option State :=
  if a < cap then some { s with msg := s.msg.write a v } else none

/-- Fault entry, `raise Fault(c)`: `ST` and `ECAUSE` are written and nothing else; nothing is saved and control goes
nowhere (R88). -/
def raiseFault (c : Cause) (s : State) : State := { s with st := .fault, ecause := c }

/-- The reset values of all registers; `MSG` is not written (R24, R79, R99). It is also the only way out of `FAULT`
(R89). -/
def resetRegisters (s : State) : State :=
  { s with h := zeroAccs, p := 0, k := 0, len := 0, st := .idle, ecause := .eNone }

/-- `LEN <- 0; ST <- IDLE` (R80). -/
def clearMessage (s : State) : State := { s with len := 0, st := .idle }

/-- `LEN <- LEN + 1; ST <- IDLE` (R81). -/
def lengthenMessage (s : State) : State := { s with len := s.len + 1, st := .idle }

/-- `H[0..7] <- 0; P <- 0; K <- 0; ST <- BUSY`, all in one step (R82). -/
def startRun (s : State) : State := { s with h := zeroAccs, p := 0, k := 0, st := .busy }

/-- `H[P] <- v; K <- K + 1` (R59). -/
def writeFolded (v : Byte) (s : State) : State := { s with h := s.h.set s.p.val v, k := s.k + 1 }

/-- `P <- P + 1; K <- 0` (R60). -/
def nextPass (s : State) : State := { s with p := s.p + 1, k := 0 }

/-- `ST <- DONE` (R61). -/
def finishRun (s : State) : State := { s with st := .done }

/-- Append byte `b` to the message in a buffer of `cap` cells: `E_OVF` when it is full, else the byte is stored at the
old `LEN` (R81). -/
def appendByte (cap : Nat) (b : Byte) (s : State) : Result :=
  if s.len = cap then .next (raiseFault .eOvf s)
  else
    match s.memWrite cap s.len b with
    | some t => .next (lengthenMessage t)
    | none => .fault .msgAddressAbsent

/-- The gate of `CLRM`, `LDB` and `GO` over the status: ignored in `FAULT`, `E_BUSY` in `BUSY`, the command's own
effect in `IDLE` and `DONE` (R77). -/
def whenHostOwns (s : State) (effect : State → Result) : Result :=
  match s.st with
  | .fault => .next s
  | .busy => .next (raiseFault .eBusy s)
  | .idle => effect s
  | .done => effect s

/-- An illegal word: ignored in `FAULT`, else `E_ILLCMD` (R42, R77). -/
def illegalCommand (s : State) : State :=
  match s.st with
  | .fault => s
  | .idle => raiseFault .eIllCmd s
  | .busy => raiseFault .eIllCmd s
  | .done => raiseFault .eIllCmd s

/-- The gate of the micro-operations: `op` has a step exactly in the states whose select word selects it
(R44, R57, R58; log 9). -/
def whenSelected (op : Instr) (s : State) (effect : State → Result) : Result :=
  if decodeSelect s.selectWord = op then effect s else .refused .microOpNotSelected

end Sys2Proof.Machine
end

