-- ==== Sys2Proof/Machine/HostCommands.lean ====
section
/-! DEFINITION. The five host commands (42_host_commands.md R77 to R82), one definition each. -/

namespace Sys2Proof.Machine

/-- `NOP`: no write, in any status (R78). -/
def execNop (s : State) : Result := .next s

/-- `RST`: the reset values of all registers, in any status (R79). -/
def execRst (s : State) : Result := .next (resetRegisters s)

/-- `CLRM`: the message becomes the empty sequence (R80). -/
def execClrm (s : State) : Result := whenHostOwns s fun s => .next (clearMessage s)

/-- `LDB b`: append one byte to the message (R81). -/
def execLdb (b : Byte) (s : State) : Result := whenHostOwns s (appendByte Config.MSG_CAP b)

/-- `GO`: start a run on the current message (R82). -/
def execGo (s : State) : Result := whenHostOwns s fun s => .next (startRun s)

end Sys2Proof.Machine
end

