-- ==== Sys2Proof/Machine/Operands.lean ====
section
/-! DEFINITION. The implicit operands of `FOLD` (R59): the message byte, the previous accumulator and the coefficient. The one
explicit operand of the block, the byte of `LDB`, is `cmd_i[7:0]` as it stands (R40, `imm8Field` of Decode.lean). -/

namespace Sys2Proof.Machine

/-- `b`, the byte `MemRead(MSG, K, 1)` (R59). -/
def State.byteOperand (s : State) : Option Byte := s.memRead s.k

/-- `prev`: 0 in pass 0, `H[P-1]` after it (R59). -/
def State.prevOperand (s : State) : Byte := prevAcc s.h s.p

/-- `COEF[P]` (R53). -/
def State.coefOperand (s : State) : Coef := coefAt s.p

end Sys2Proof.Machine
end

