-- ==== Sys2Proof/Machine/Sequencer.lean ====
section
/-! DEFINITION. The sequencer's micro-operations (40_digest_engine.md R57 to R61), one definition each. -/

namespace Sys2Proof.Machine

/-- The effect of `FOLD` (R59). -/
def foldByte (s : State) : Result :=
  match s.byteOperand with
  | some b => .next (writeFolded (fold s.prevOperand b s.coefOperand) s)
  | none => .fault .msgCellUnwritten

/-- `FOLD`: fold one message byte into accumulator `P` (R59). -/
def execFold (s : State) : Result := whenSelected .fold s foldByte

/-- `NEXT`: go to the next pass (R60). -/
def execNext (s : State) : Result := whenSelected .next s fun s => .next (nextPass s)

/-- `FIN`: end the run (R61). -/
def execFin (s : State) : Result := whenSelected .fin s fun s => .next (finishRun s)

/-- `HOLD`: the sequencer takes no step, and nothing in the block changes (R58; log 11). -/
def execHold (s : State) : Result := whenSelected .hold s fun s => .next s

end Sys2Proof.Machine
end

