-- ==== Sys2Proof/Machine/Dispatch.lean ====
section
/-! DEFINITION. One arm per constructor of Instr. -/

namespace Sys2Proof.Machine

def exec (i : Instr) (s : State) : Host.Outcome State Fault Refusal :=
  match i with
  | .nop => Sys2Proof.Machine.execNop s
  | .rst => Sys2Proof.Machine.execRst s
  | .clrm => Sys2Proof.Machine.execClrm s
  | .ldb b => Sys2Proof.Machine.execLdb b s
  | .go => Sys2Proof.Machine.execGo s
  | .fold => Sys2Proof.Machine.execFold s
  | .next => Sys2Proof.Machine.execNext s
  | .fin => Sys2Proof.Machine.execFin s
  | .hold => Sys2Proof.Machine.execHold s

end Sys2Proof.Machine
end

