-- ==== Sys2Proof/Machine/Agents.lean ====
section
/-! DEFINITION. One move of each agent: `HOST` presenting its pins (R19, R77, R99) and `SEQ` taking its turn (R57, R58); and
what it takes for a given word to be the next one selected. -/

namespace Sys2Proof.Machine

/-- One command transaction: the word is decoded and acts, or is illegal (R77). -/
def commandStep (w : CmdWord) (s : State) : Result :=
  match decodeCommand w with
  | .ok i => exec i s
  | .error _ => .next (illegalCommand s)

/-- One presentation of the pins. Reset overrides a command presented with it (R99); with `cmd_valid_i` deasserted
`cmd_i` is ignored (R19). -/
def hostStep (pins : HostPins) (s : State) : Result :=
  if pins.rst then .next (resetRegisters s)
  else if pins.cmdValid then commandStep pins.cmd s
  else .next s

/-- One turn of the sequencer: the micro-operation the state selects (R57), or none (R58). -/
def seqStep (s : State) : Result := exec (decodeSelect s.selectWord) s

/-- The pins of one command transaction with word `w`. -/
def commandPins (w : CmdWord) : HostPins := { rst := false, cmdValid := true, cmd := w }

/-- The pins while reset is asserted and no command is presented. -/
def resetPins : HostPins := { rst := true, cmdValid := false, cmd := 0#11 }

/-- `s` with `ST = BUSY` exactly when `b`. -/
def placeBusy (b : Bool) (s : State) : State :=
  if b then { s with st := .busy } else if s.busy then { s with st := .idle } else s

/-- `s` with `K < LEN` exactly when `b`. Where it lengthens the message, the byte at `K` is made one that has been
written. -/
def placeMore (b : Bool) (s : State) : State :=
  if b then
    if s.k < s.len then s else { s with len := s.k + 1, msg := s.msg.write s.k 0#8 }
  else
    if s.k < s.len then { s with k := s.len } else s

/-- `s` with `P = 7` exactly when `b`. -/
def placeLastp (b : Bool) (s : State) : State :=
  if b then { s with p := 7 } else if s.lastp then { s with p := 0 } else s

/-- `s` with the select word `w`, and the turn with the sequencer. -/
def placeSelect (w : SelWord) (s : State) : State :=
  let t := placeBusy (w.getLsbD 2) (placeMore (w.getLsbD 1) (placeLastp (w.getLsbD 0) s))
  { t with sched := .seq :: t.sched }

/-- `s` with the host about to present command word `w`. -/
def placeCommand (w : CmdWord) (s : State) : State :=
  { s with sched := .host (commandPins w) :: s.sched }

/-- `s` with the given word as the next one selected. -/
def placeWord : FetchWord → State → State
  | .cmd w, s => placeCommand w s
  | .sel w, s => placeSelect w s

end Sys2Proof.Machine
end

