-- ==== Sys2Proof/Machine/Step.lean ====
section
/-! DEFINITION. The step: the next entry of the schedule moves (R9). -/

namespace Sys2Proof.Machine

/-- One step of the machine. With nothing listed the host is silent and the turn is the sequencer's (R106; log 2). A
waiting host gives the sequencer the turn while `ST = BUSY`, and then stops waiting (R49; log 3). -/
def step (s : State) : Host.Outcome State Fault Refusal :=
  match s.sched with
  | [] => seqStep s
  | .host pins :: rest => hostStep pins { s with sched := rest }
  | .seq :: rest => seqStep { s with sched := rest }
  | .wait :: rest => if s.busy then seqStep s else .next { s with sched := rest }

/-- `s` with the word `w` of `nbits` bits placed so that the very next step decodes and runs it: a command word as the
host's next transaction, a select word as the state's own select word with the turn at the sequencer (log 4). A number
that is no word of either format leaves `s` as it is. -/
def State.withFetchWord (s : State) (nbits w : Nat) : State :=
  match fetchWordOfTable nbits w with
  | some f => placeWord f s
  | none => s

end Sys2Proof.Machine
end

