-- ==== Sys2Proof/Machine/Assembler.lean ====
section
/-! DEFINITION. The notation for host programs: the assembler syntax (R48), the pseudo-instructions and host actions (R49), and
what they put on the command port. -/

namespace Sys2Proof.Machine

/-- One line of a host program (R48, R49), its operands as the numbers written. -/
inductive AsmLine where
  | nop
  | rst
  | clrm
  | ldb (b : Nat)
  | go
  /-- `.word <w>`: the word `w`, legal or not. -/
  | word (w : Nat)
  /-- `msg b0, ..., bn-1`. -/
  | msg (bs : List Nat)
  /-- `digest b0, ..., bn-1`. -/
  | digest (bs : List Nat)
  | wait
  | sample
  deriving DecidableEq, Repr

/-- What the host does for one item of a program: a command transaction, or an action that puts no word on `cmd_i`
(R49). -/
inductive HostAction where
  | transaction (w : CmdWord)
  | wait
  | sample
  deriving DecidableEq, Repr

/-- Why a line is an assembly error (R48). -/
inductive AsmError where
  | unknownMnemonic
  | badNumber
  | wrongOperandCount
  | operandOutOfRange
  deriving DecidableEq, Repr

/-- `<byte>` is 0 to 255 (R48). -/
def asmByteOk (b : Nat) : Bool := b ≤ 255

/-- Every operand is in its range: "An operand outside 0..255 is an assembly error, not a word" (R48); it is never
reduced (U2). -/
def AsmLine.wellFormed : AsmLine → Bool
  | .nop => true
  | .rst => true
  | .clrm => true
  | .ldb b => asmByteOk b
  | .go => true
  | .word w => w ≤ 2047
  | .msg bs => bs.all asmByteOk
  | .digest bs => bs.all asmByteOk
  | .wait => true
  | .sample => true

/-- The word of `ldb <byte>`: `0x300 + <byte>` (R48). -/
def ldbWord (b : Nat) : CmdWord := BitVec.ofNat 11 (0x300 + b)

/-- `clrm`, then one `ldb` per byte (R49). -/
def msgActions (bs : List Nat) : List HostAction :=
  .transaction 0x200#11 :: bs.map fun b => .transaction (ldbWord b)

/-- What a line with operands in range expands to (R48, R49). -/
def AsmLine.expand : AsmLine → List HostAction
  | .nop => [.transaction 0x000#11]
  | .rst => [.transaction 0x100#11]
  | .clrm => [.transaction 0x200#11]
  | .ldb b => [.transaction (ldbWord b)]
  | .go => [.transaction 0x400#11]
  | .word w => [.transaction (BitVec.ofNat 11 w)]
  | .msg bs => msgActions bs
  | .digest bs => msgActions bs ++ [.transaction 0x400#11, .wait]
  | .wait => [.wait]
  | .sample => [.sample]

/-- A line's expansion, or the assembly error. -/
def AsmLine.assemble (l : AsmLine) : Except AsmError (List HostAction) :=
  if l.wellFormed then .ok l.expand else .error .operandOutOfRange

/-- The moves a host action stands for in the schedule; a sampling is no move (R49, R83). -/
def HostAction.events : HostAction → List Event
  | .transaction w => [.host (commandPins w)]
  | .wait => [.wait]
  | .sample => []

/-- The schedule of a host that carries out the actions and leaves the sequencer its turns in its waits only. -/
def scheduleOf (as : List HostAction) : List Event := as.flatMap HostAction.events

/-! The text of a line (log 18). -/

/-- A lower-case copy of an ASCII letter, for "mnemonics case-insensitive" (R48). -/
def lowerChar (c : Char) : Char :=
  if 65 ≤ c.toNat ∧ c.toNat ≤ 90 then Char.ofNat (c.toNat + 32) else c

/-- A blank or a comma parts two operands. -/
def isSeparator (c : Char) : Bool := c == ' ' || c == '\t' || c == ','

/-- Put a finished token, unless it is empty, before the others. -/
def flushToken (cur : List Char) (rest : List (List Char)) : List (List Char) :=
  if cur.isEmpty then rest else cur :: rest

/-- The tokens of a line: `;` starts a comment to the end of the line, but not as a quoted character (R48). -/
def asmTokens : List Char → List Char → List (List Char)
  | cur, [] => flushToken cur []
  | cur, '\'' :: c :: '\'' :: cs => asmTokens (cur ++ ['\'', c, '\'']) cs
  | cur, c :: cs =>
    if c == ';' then flushToken cur []
    else if isSeparator c then flushToken cur (asmTokens [] cs)
    else asmTokens (cur ++ [c]) cs

/-- The value of a hexadecimal digit. -/
def hexDigitValue (c : Char) : Option Nat :=
  if 48 ≤ c.toNat ∧ c.toNat ≤ 57 then some (c.toNat - 48)
  else if 97 ≤ (lowerChar c).toNat ∧ (lowerChar c).toNat ≤ 102 then some ((lowerChar c).toNat - 87)
  else none

/-- The digits of a number in a base, on top of the value read so far. -/
def digitsValue (base : Nat) : Nat → List Char → Option Nat
  | acc, [] => some acc
  | acc, c :: cs =>
    match hexDigitValue c with
    | some d => if d < base then digitsValue base (acc * base + d) cs else none
    | none => none

/-- A number: `0x` hexadecimal, a printable character in single quotes for its ASCII code, or decimal (R48). -/
def parseNumber : List Char → Option Nat
  | [] => none
  | ['\'', c, '\''] => if 0x20 ≤ c.toNat ∧ c.toNat ≤ 0x7E then some c.toNat else none
  | '0' :: 'x' :: d :: ds => digitsValue 16 0 (d :: ds)
  | d :: ds => digitsValue 10 0 (d :: ds)

/-- All operands of a line as numbers. -/
def parseNumbers : List (List Char) → Option (List Nat)
  | [] => some []
  | t :: ts =>
    match parseNumber t, parseNumbers ts with
    | some n, some ns => some (n :: ns)
    | _, _ => none

/-- The line a mnemonic and its operands stand for (R48, R49). -/
def asmLineOf (m : List Char) (ops : List Nat) : Except AsmError AsmLine :=
  if m = ['m', 's', 'g'] then .ok (.msg ops)
  else if m = ['d', 'i', 'g', 'e', 's', 't'] then .ok (.digest ops)
  else if m = ['l', 'd', 'b'] then
    match ops with
    | [b] => .ok (.ldb b)
    | _ => .error .wrongOperandCount
  else if m = ['.', 'w', 'o', 'r', 'd'] then
    match ops with
    | [w] => .ok (.word w)
    | _ => .error .wrongOperandCount
  else
    let plain : Option AsmLine :=
      if m = ['n', 'o', 'p'] then some .nop
      else if m = ['r', 's', 't'] then some .rst
      else if m = ['c', 'l', 'r', 'm'] then some .clrm
      else if m = ['g', 'o'] then some .go
      else if m = ['w', 'a', 'i', 't'] then some .wait
      else if m = ['s', 'a', 'm', 'p', 'l', 'e'] then some .sample
      else none
    match plain, ops with
    | some l, [] => .ok l
    | some _, _ :: _ => .error .wrongOperandCount
    | none, _ => .error .unknownMnemonic

/-- One line of text: nothing for an empty line or a comment alone. -/
def parseAsmLine (text : List Char) : Except AsmError (Option AsmLine) :=
  match asmTokens [] text with
  | [] => .ok none
  | m :: ts =>
    match parseNumbers ts with
    | some ops => (asmLineOf (m.map lowerChar) ops).map some
    | none => .error .badNumber

/-- A whole program, line by line, to the host's actions. -/
def assembleText : List (List Char) → Except AsmError (List HostAction)
  | [] => .ok []
  | t :: ts =>
    match parseAsmLine t with
    | .error e => .error e
    | .ok none => assembleText ts
    | .ok (some l) =>
      match l.assemble, assembleText ts with
      | .ok as, .ok rest => .ok (as ++ rest)
      | .error e, _ => .error e
      | .ok _, .error e => .error e

end Sys2Proof.Machine
end

