-- ==== Sys2Proof/Machine/Executions.lean ====
section
/-! DEFINITION. The executions of the block (R4, R9): the labelled transitions of the two agents, the sequences of them, finite
or infinite, in every interleaving, and weak fairness of the sequencer (R106). The step of Step.lean plays one agent's move
at a time from the schedule in State; here the moves are any sequence at all. -/

namespace Sys2Proof.Machine

/-- A step of one of the two agents (R9). -/
inductive Move where
  /-- `HOST` presents the pins (R19, R77, R99). -/
  | host (pins : HostPins)
  /-- `SEQ` takes the micro-operation the state selects (R57). -/
  | seq
  deriving DecidableEq, Repr

/-- `HOST` has an enabled step in every state (R106); `SEQ` has one exactly when `ST = BUSY` (R9, R58). -/
def Move.enabled : Move → State → Bool
  | .host _, _ => true
  | .seq, s => s.busy

/-- What the move does. It does not read the schedule. -/
def Move.act : Move → State → Result
  | .host pins, s => hostStep pins s
  | .seq, s => seqStep s

/-- The entry of a schedule that stands for the move. -/
def Move.event : Move → Event
  | .host pins => .host pins
  | .seq => .seq

/-- One labelled transition: an enabled move of one agent, atomic (R9), or `none`, nobody moves and nothing changes. -/
def Transition (m : Option Move) (s t : State) : Prop :=
  match m with
  | none => t = s
  | some m => m.enabled s = true ∧ m.act s = .next t

/-- An execution: `state n` goes to `state (n + 1)` by `move n`. The moves are any sequence, so the agents interleave in any
order (R9), and either may go on for ever; where the host stops for good and `SEQ` has no step, `none` follows. -/
def IsExecution (state : Nat → State) (move : Nat → Option Move) : Prop :=
  ∀ n, Transition (move n) (state n) (state (n + 1))

/-- Weak fairness of `SEQ`, the only progress assumption (R9, R106): if `ST = BUSY` from some point on, `SEQ` takes
infinitely many steps. -/
def WeaklyFair (state : Nat → State) (move : Nat → Option Move) : Prop :=
  (∃ N, ∀ n, N ≤ n → (state n).st = .busy) → ∀ M, ∃ n, M ≤ n ∧ move n = some .seq

/-- The moves among the first `n`, as a schedule. -/
def scheduleOfMoves (move : Nat → Option Move) (n : Nat) : List Event :=
  ((List.range n).filterMap move).map Move.event

/-- The number of steps of `SEQ` from point `m` to point `n`. -/
def seqStepsBetween (move : Nat → Option Move) (m n : Nat) : Nat :=
  ((List.range' m (n - m)).filter fun i => move i == some .seq).length

/-- The wished move, unless it is one of `SEQ` that is not enabled: then nobody moves. -/
def enabledOr (wish : Option Move) (s : State) : Option Move :=
  match wish with
  | some m => if m.enabled s then some m else none
  | none => none

end Sys2Proof.Machine
end

