-- ==== Sys2Proof/Machine/HexEncoder.lean ====
section
/-! DEFINITION. The hex encoder as pure functions: the digit code (R45, R69), `HexEnc` (R46, R70), `DigestHex` (R72), the
inverse (R74), and the packing of bytes on a port, first byte least significant (R28, R47). -/

namespace Sys2Proof.Machine

/-- `hexchar(n)`: `0x30 + n` for `n <= 9`, `0x57 + n` above (R45, R69). -/
def hexchar (n : BitVec 4) : Byte :=
  if n.toNat ≤ 9 then 0x30#8 + n.zeroExtend 8 else 0x57#8 + n.zeroExtend 8

/-- The two characters of a byte, high nibble first (R46). -/
def hexPair (v : Byte) : List Byte := [hexchar (v.extractLsb' 4 4), hexchar (v.extractLsb' 0 4)]

/-- The mask to the low 8 bits, `V[j] & 0xFF` (R70). -/
def mask8 (v : Nat) : Byte := BitVec.ofNat 8 (v &&& 0xFF)

/-- `HexEnc(V)`, for any number of non-negative integers (R70). -/
def hexEnc : List Nat → List Byte
  | [] => []
  | v :: V => hexPair (mask8 v) ++ hexEnc V

/-- The one instance of the block: eight accumulators in, sixteen characters out (R71). -/
def hexEncAccs (h : Accs) : List Byte := hexEnc (h.toList.map BitVec.toNat)

/-- `DigestHex(S) = HexEnc(DigestAcc(S))` (R72). -/
def digestHex (S : List Byte) : List Byte := hexEncAccs (digestAcc S)

/-- The nibble a character code stands for; no other code occurs in a digest string (R74). -/
def nibbleOfHexchar (x : Byte) : Option (BitVec 4) :=
  if 0x30 ≤ x.toNat ∧ x.toNat ≤ 0x39 then some (BitVec.ofNat 4 (x.toNat - 0x30))
  else if 0x61 ≤ x.toNat ∧ x.toNat ≤ 0x66 then some (BitVec.ofNat 4 (x.toNat - 0x57))
  else none

/-- The byte sequence a hexadecimal string stands for (R74): `16 * nibble(high) + nibble(low)` per pair. -/
def hexDec : List Byte → Option (List Byte)
  | [] => some []
  | [_] => none
  | x :: y :: cs =>
    match nibbleOfHexchar x, nibbleOfHexchar y, hexDec cs with
    | some a, some b, some vs => some (BitVec.ofNat 8 (16 * a.toNat + b.toNat) :: vs)
    | _, _, _ => none

/-- Bytes packed into a number, the first byte least significant (R28, R47). -/
def packBytes : List Byte → Nat
  | [] => 0
  | b :: bs => b.toNat + 256 * packBytes bs

end Sys2Proof.Machine
end

