-- ==== Sys2Proof/Machine/Ports.lean ====
section
/-! DEFINITION. The output ports, functions of the state (R20), and sampling them (R83). The result ports are specified in
`DONE` only; elsewhere sampling number `n` draws a free value (U6; log 8). -/

namespace Sys2Proof.Machine

/-- `st_o` (R20). -/
def stO (s : State) : BitVec 2 := s.st.code

/-- `busy_o` (R20). -/
def busyO (s : State) : BitVec 1 := BitVec.ofBool s.busy

/-- `done_o` (R20). -/
def doneO (s : State) : BitVec 1 := BitVec.ofBool s.done

/-- `fault_o` (R20). -/
def faultO (s : State) : BitVec 1 := BitVec.ofBool s.faulted

/-- `ecause_o` (R20). -/
def ecauseO (s : State) : BitVec 2 := s.ecause.code

/-- `len_o`, `LENW` bits (R20). -/
def lenO (s : State) : BitVec Config.LENW := BitVec.ofNat Config.LENW s.len

/-- `HEXCH[0..15]`, the encoder's output, a function of `H` in every state (R71). -/
def hexCh (s : State) : List Byte := hexEncAccs s.h

/-- `dig_o` at sampling number `n`: accumulator `j` in bits `8j+7 : 8j` in `DONE`, else a free value (R20). -/
def digO (n : Nat) (s : State) : BitVec 64 :=
  if s.done then BitVec.ofNat 64 (packBytes s.h.toList) else Config.freeDigO n

/-- `hex_o` at sampling number `n`: character `c` in bits `8c+7 : 8c` in `DONE`, else a free value (R20, R71). -/
def hexO (n : Nat) (s : State) : BitVec 128 :=
  if s.done then BitVec.ofNat 128 (packBytes (hexCh s)) else Config.freeHexO n

/-- What one sampling of all ports returns. -/
structure PortValues where
  stO : BitVec 2
  busyO : BitVec 1
  doneO : BitVec 1
  faultO : BitVec 1
  ecauseO : BitVec 2
  lenO : BitVec Config.LENW
  digO : BitVec 64
  hexO : BitVec 128
  deriving DecidableEq, Repr

/-- Sampling number `n`, all ports in one state (R83, R103). It is not a step and changes nothing. -/
def sample (n : Nat) (s : State) : PortValues where
  stO := stO s
  busyO := busyO s
  doneO := doneO s
  faultO := faultO s
  ecauseO := ecauseO s
  lenO := lenO s
  digO := digO n s
  hexO := hexO n s

end Sys2Proof.Machine
end

