-- ==== Sys2Proof/Safety.lean ====
section
/-! DEFINITION. What claims speak of: the message a state holds, the invariants of R23, the quiet moves of a host, and runs of
several steps. -/

namespace Sys2Proof.Machine

/-- The message of `s` is `S`: `LEN` is its length and `MSG[k] = S[k]` below it (R18, R63). -/
def HoldsMessage (s : State) (S : List Byte) : Prop :=
  s.len = S.length ∧ ∀ (k : Nat) (hk : k < S.length), s.msg.read k = some S[k]

/-- The accumulators during a run over `S` (R23 (vii)): settled below `P`, in progress at `P`, zero above. -/
structure RunInProgress (s : State) (S : List Byte) : Prop where
  settled : ∀ j : Fin 8, j < s.p → s.h[j] = (digestAcc S)[j]
  unstarted : s.k = 0 → s.h[s.p] = 0#8
  folded : ∀ (k : Nat) (hk : k < S.length), s.k = k + 1 → s.h[s.p] = fold (prevAcc s.h s.p) S[k] (coefAt s.p)
  untouched : ∀ j : Fin 8, s.p < j → s.h[j] = 0#8

/-- The invariants of R23, with R13's `(P, K)` after a completed run and the canonical form of `MSG`. -/
structure Inv (s : State) : Prop where
  /-- R23 (i), R12. -/
  acc_le : ∀ j : Fin 8, s.h[j].toNat ≤ 254
  /-- R23 (ii), R16. -/
  len_le : s.len ≤ Config.MSG_CAP
  /-- R23 (iii), R13. -/
  k_le : s.st = .busy ∨ s.st = .done → s.k ≤ s.len
  /-- R23 (iv), R15. -/
  ecause_iff : s.ecause = .eNone ↔ s.st ≠ .fault
  /-- R13: "After a completed run `P = 7` and `K = LEN`". -/
  done_pos : s.st = .done → s.p = 7 ∧ s.k = s.len
  /-- The canonical form of the message buffer. -/
  msg_wf : s.msg.wf = true
  /-- R18: no cell at or above `MSG_CAP`. -/
  msg_bound : ∀ a, Config.MSG_CAP ≤ a → s.msg.read a = none
  /-- R23 (v): every cell below `LEN` holds a byte; (vi): in `DONE` the accumulators are the digest; (vii). -/
  message : ∃ S, HoldsMessage s S ∧ (s.st = .done → s.h = digestAcc S) ∧ (s.st = .busy → RunInProgress s S)

/-- A host move that is no command other than `NOP` and no reset, a wait, or a turn of the sequencer (R63: "no host
command other than `NOP` occurs"). -/
def Event.quiet : Event → Bool
  | .host pins => !pins.rst && (!pins.cmdValid || pins.cmd == 0#11)
  | .seq => true
  | .wait => true

/-- The number of turns of the sequencer in a schedule. -/
def seqTurns (es : List Event) : Nat := es.count .seq

/-- The variant of R62 in `BUSY` states. -/
def runVariant (s : State) : Nat := (7 - s.p.val) * (s.len + 1) + (s.len - s.k) + 1

/-- `n` steps from `s`, stopping at the first stop. -/
def runSteps (n : Nat) (s : State) : Result := Sys2Proof.core.run n s

/-- The host's program for one digest of `S` (R84): `clrm`, one `ldb` per byte, `go`, and the completion wait. -/
def digestProgram (S : List Byte) : List Event :=
  scheduleOf (AsmLine.digest (S.map BitVec.toNat)).expand

/-- Two states that differ at most in cells of `MSG` at or above `LEN` (R38). -/
def AgreeBelowLen (s t : State) : Prop :=
  t = { s with msg := t.msg } ∧ ∀ a, a < s.len → s.msg.read a = t.msg.read a

/-- A command word that leaves `FAULT`: the pins assert reset or present `RST` (R89). -/
def HostPins.recovers (pins : HostPins) : Bool :=
  pins.rst || (pins.cmdValid && decide (decodeCommand pins.cmd = .ok .rst))

end Sys2Proof.Machine
end

