-- ==== Sys2Proof/Certificates/Slice0/Obligations.lean ====
section
/-! DEFINITION. The statements for the provers. Each docstring names the rules of spec/ it formalises. -/

open Sys2Proof Sys2Proof.Machine

/-! ### Encoding -/

/-- Decoding an encoded instruction gives it back, with every byte of `LDB`; a command has one word; and a select word
decodes to an instruction exactly when the row of R44 admits it. -/
def Obligations.EncodeThenDecodeGivesTheInstruction : Prop :=
  ∀ i : Instr,
    decode (encode i) = .ok i ∧
    (∀ w, decode (.cmd w) = .ok i → encode i = .cmd w) ∧
    (∀ w, decode (.sel w) = .ok i ↔ i.wellFormedIn .seq = true ∧ (opRow i).admits (.sel w) = true)

/-- R41: a word is a command iff `w & mask = match`, with the match and mask of the command's row; 260 words are legal. -/
def Obligations.CommandWordsAreTheRowsOfTheMap : Prop :=
  (∀ w : CmdWord,
    (decodeCommand w = .ok .nop ↔ w &&& 0x7FF#11 = 0x000#11) ∧
    (decodeCommand w = .ok .rst ↔ w &&& 0x7FF#11 = 0x100#11) ∧
    (decodeCommand w = .ok .clrm ↔ w &&& 0x7FF#11 = 0x200#11) ∧
    (∀ b : Byte, decodeCommand w = .ok (.ldb b) ↔ w &&& 0x700#11 = 0x300#11 ∧ b = w.extractLsb' 0 8) ∧
    (decodeCommand w = .ok .go ↔ w &&& 0x7FF#11 = 0x400#11)) ∧
  (∀ w : CmdWord, ∀ i, decodeCommand w = .ok i → i.wellFormedIn .cmd = true) ∧
  ((List.range 2048).filter fun n => (decodeCommand (BitVec.ofNat 11 n)).isOk).length = 260

/-- R42: the two groups of illegal words, their numbers, and what each does in each status. -/
def Obligations.IllegalWordsRaiseIllCmd : Prop :=
  (∀ w : CmdWord, (∃ e, decodeCommand w = .error e) ↔
    (5 ≤ (w.extractLsb' 8 3).toNat ∨
      ((w.extractLsb' 8 3).toNat ∈ [0, 1, 2, 4] ∧ (w.extractLsb' 0 8).toNat ≠ 0))) ∧
  ((List.range 2048).filter fun n => !(decodeCommand (BitVec.ofNat 11 n)).isOk).length = 1788 ∧
  ((List.range 2048).filter fun n => decide (5 ≤ ((BitVec.ofNat 11 n).extractLsb' 8 3).toNat)).length = 768 ∧
  (∀ (s : State) (w : CmdWord) (e : DecodeError) (rest : List Event),
    decodeCommand w = .error e → s.sched = .host (commandPins w) :: rest →
    (s.st ≠ .fault → step s = .next { s with st := .fault, ecause := .eIllCmd, sched := rest }) ∧
    (s.st = .fault → step s = .next { s with sched := rest }))

/-- R44: the bits of the select word and the micro-operation each pattern selects. -/
def Obligations.SelectWordRowsSelect : Prop :=
  ∀ s : State,
    (s.selectWord.getLsbD 2 = true ↔ s.st = .busy) ∧
    (s.selectWord.getLsbD 1 = true ↔ s.k < s.len) ∧
    (s.selectWord.getLsbD 0 = true ↔ s.p = 7) ∧
    (decodeSelect s.selectWord = .fold ↔ s.selectWord &&& 0b110#3 = 0b110#3) ∧
    (decodeSelect s.selectWord = .next ↔ s.selectWord &&& 0b111#3 = 0b100#3) ∧
    (decodeSelect s.selectWord = .fin ↔ s.selectWord &&& 0b111#3 = 0b101#3) ∧
    (decodeSelect s.selectWord = .hold ↔ s.selectWord &&& 0b100#3 = 0b000#3) ∧
    (decodeSelect s.selectWord ∈ [.fold, .next, .fin, .hold])

/-- Words written out from R41 and R44 decode to what they stand for (95_test_vectors.md V5, V7). -/
def Obligations.WrittenOutWordsDecode : Prop :=
  decodeTableWord 16 0x000 = some .nop ∧ decodeTableWord 16 0x100 = some .rst ∧
  decodeTableWord 16 0x200 = some .clrm ∧ decodeTableWord 16 0x341 = some (.ldb 65#8) ∧
  decodeTableWord 16 0x3ff = some (.ldb 255#8) ∧ decodeTableWord 16 0x400 = some .go ∧
  decodeTableWord 16 0x1ff = none ∧ decodeTableWord 16 0x641 = none ∧
  decodeTableWord 8 0b110 = some .fold ∧ decodeTableWord 8 0b111 = some .fold ∧
  decodeTableWord 8 0b100 = some .next ∧ decodeTableWord 8 0b101 = some .fin ∧
  decodeTableWord 8 0b010 = some .hold

/-! ### A step runs the decoded instruction -/

/-- A command transaction whose word decodes runs the instruction, on the state with that move taken off the schedule. -/
def Obligations.StepRunsTheDecodedCommand : Prop :=
  ∀ (s : State) (w : CmdWord) (i : Instr) (rest : List Event),
    s.sched = .host { rst := false, cmdValid := true, cmd := w } :: rest → decodeCommand w = .ok i →
    step s = exec i { s with sched := rest }

/-- R57: in `BUSY` the sequencer's one step is `FOLD` if `K < LEN`, else `NEXT` if `P < 7`, else `FIN`; it is taken in its
own turn, while the host waits, and when the host is silent. -/
def Obligations.SequencerRunsTheSelectedMicroOperation : Prop :=
  ∀ (s : State) (rest : List Event), s.st = .busy →
    (s.sched = .seq :: rest →
      step s = exec (if s.k < s.len then .fold else if s.p.val < 7 then .next else .fin) { s with sched := rest }) ∧
    (s.sched = .wait :: rest ∨ s.sched = [] →
      step s = exec (if s.k < s.len then .fold else if s.p.val < 7 then .next else .fin) s)

/-- R58: outside `BUSY` the sequencer has no step: its turn, the end of a wait and a silent host change nothing in the
block. -/
def Obligations.NothingMovesOutsideBusy : Prop :=
  ∀ (s : State) (rest : List Event), s.st ≠ .busy →
    (s.sched = .seq :: rest → step s = .next { s with sched := rest }) ∧
    (s.sched = .wait :: rest → step s = .next { s with sched := rest }) ∧
    (s.sched = [] → step s = .next s)

/-- R99: while `rst_i` is asserted the registers take the reset values, whatever the status and whatever command is
presented; `MSG` is not written. -/
def Obligations.ResetEventOverridesEverything : Prop :=
  ∀ (s : State) (pins : HostPins) (rest : List Event),
    pins.rst = true → s.sched = .host pins :: rest →
    step s = .next
      { h := Vector.replicate 8 0#8, p := 0, k := 0, len := 0, st := .idle, ecause := .eNone,
        msg := s.msg, sched := rest }

/-- R19: with `cmd_valid_i` (and `rst_i`) deasserted the pins change nothing. -/
def Obligations.PinsWithoutValidAreIgnored : Prop :=
  ∀ (s : State) (pins : HostPins) (rest : List Event),
    pins.rst = false → pins.cmdValid = false → s.sched = .host pins :: rest →
    step s = .next { s with sched := rest }

/-! ### The instructions: result, completion and frame -/

/-- R78. -/
def Obligations.NopChangesNothing : Prop :=
  decodeCommand 0x000#11 = .ok .nop ∧ ∀ s : State, exec .nop s = .next s

/-- R79: all registers take their reset values in every status; `MSG` and nothing else is kept; the effect is that of the
reset event; no other command acts in `FAULT`. -/
def Obligations.RstRestoresResetValues : Prop :=
  decodeCommand 0x100#11 = .ok .rst ∧
  (∀ s : State, ∃ t, exec .rst s = .next t ∧
    t = { h := Vector.replicate 8 0#8, p := 0, k := 0, len := 0, st := .idle, ecause := .eNone,
          msg := s.msg, sched := s.sched } ∧
    busyO t = 0#1 ∧ doneO t = 0#1 ∧ faultO t = 0#1 ∧ ∀ pins, pins.rst = true → hostStep pins s = .next t) ∧
  (∀ (s : State) (w : CmdWord), s.st = .fault → decodeCommand w ≠ .ok .rst → commandStep w s = .next s)

/-- R80: `LEN` and `ST` only are written, so that the message is empty; `E_BUSY` in `BUSY`; ignored in `FAULT`. The result
ports are unspecified then (R20, R83); that a sampling draws the free value of its number is the model's form of it
(log 8). -/
def Obligations.ClrmEmptiesTheMessage : Prop :=
  decodeCommand 0x200#11 = .ok .clrm ∧
  ∀ s : State,
    (s.st = .idle ∨ s.st = .done →
      ∃ t, exec .clrm s = .next t ∧ t = { s with len := 0, st := .idle } ∧ doneO t = 0#1 ∧ HoldsMessage t [] ∧
        ∀ n, digO n t = Config.freeDigO n ∧ hexO n t = Config.freeHexO n) ∧
    (s.st = .busy → exec .clrm s = .next { s with st := .fault, ecause := .eBusy }) ∧
    (s.st = .fault → exec .clrm s = .next s)

/-- R81: the byte is stored at the old `LEN` as it is and no other cell changes, `LEN` grows by one; `E_OVF` when the
buffer is full, `E_BUSY` in `BUSY`, both with nothing written; ignored in `FAULT`. -/
def Obligations.LdbAppendsTheByte : Prop :=
  ∀ (b : Byte) (s : State),
    decodeCommand (0x300#11 + b.zeroExtend 11) = .ok (.ldb b) ∧
    (s.st = .idle ∨ s.st = .done → s.len < Config.MSG_CAP →
      ∃ t, exec (.ldb b) s = .next t ∧
        t = { s with msg := t.msg, len := s.len + 1, st := .idle } ∧ doneO t = 0#1 ∧
        t.msg.read s.len = some b ∧ ∀ a, a ≠ s.len → t.msg.read a = s.msg.read a) ∧
    (s.st = .idle ∨ s.st = .done → s.len = Config.MSG_CAP →
      exec (.ldb b) s = .next { s with st := .fault, ecause := .eOvf }) ∧
    (s.st = .busy → exec (.ldb b) s = .next { s with st := .fault, ecause := .eBusy }) ∧
    (s.st = .fault → exec (.ldb b) s = .next s)

/-- R82: zero-fill and start in one step; `E_BUSY` in `BUSY`; ignored in `FAULT`. -/
def Obligations.GoStartsARun : Prop :=
  decodeCommand 0x400#11 = .ok .go ∧
  ∀ s : State,
    (s.st = .idle ∨ s.st = .done →
      ∃ t, exec .go s = .next t ∧ t = { s with h := Vector.replicate 8 0#8, p := 0, k := 0, st := .busy } ∧
        busyO t = 1#1 ∧ doneO t = 0#1) ∧
    (s.st = .busy → exec .go s = .next { s with st := .fault, ecause := .eBusy }) ∧
    (s.st = .fault → exec .go s = .next s)

/-- R59: `FOLD` is selected iff `ST = BUSY` and `K < LEN`; `H[P]` takes `((prev + b) * COEF[P]) mod 255`, `K` grows by
one, nothing else changes. The arithmetic is written out in natural numbers and the coefficients as R17 lists them. Corner
cases (iv) and (v): bytes 0 and 255 fold alike, and a sum that is a multiple of 255 folds to 0. -/
def Obligations.FoldWritesAccumulatorP : Prop :=
  (∀ s : State, decodeSelect s.selectWord = .fold ↔ s.st = .busy ∧ s.k < s.len) ∧
  (∀ (s : State) (b : Byte), s.st = .busy → s.k < s.len → s.msg.read s.k = some b →
    exec .fold s = .next
      { s with
        h := s.h.set s.p.val (BitVec.ofNat 8
          ((((if s.p.val = 0 then 0 else s.h[s.p.val - 1].toNat) + b.toNat) *
            [2, 3, 5, 7, 11, 13, 17, 19].getD s.p.val 0) % 255))
        k := s.k + 1 }) ∧
  (∀ (prev b : Byte) (c : Coef),
    fold prev 0#8 c = fold prev 255#8 c ∧ (255 ∣ prev.toNat + b.toNat → fold prev b c = 0#8))

/-- R60: `NEXT` is selected iff `ST = BUSY`, `K = LEN` and `P < 7` (with `K <= LEN`, R13); `P` and `K` only are
written. -/
def Obligations.NextStartsTheNextPass : Prop :=
  ∀ s : State,
    (s.k ≤ s.len → (decodeSelect s.selectWord = .next ↔ s.st = .busy ∧ s.k = s.len ∧ s.p.val < 7)) ∧
    (s.st = .busy → s.k = s.len → s.p.val < 7 →
      ∃ t, exec .next s = .next t ∧ t = { s with p := t.p, k := 0 } ∧ t.p.val = s.p.val + 1)

/-- R61: `FIN` is selected iff `ST = BUSY`, `K = LEN` and `P = 7` (with `K <= LEN`, R13); `ST` only is written; from this
step on the result ports are specified, and under the invariants they equal the digest of the message. -/
def Obligations.FinCompletesTheRun : Prop :=
  ∀ s : State,
    (s.k ≤ s.len → (decodeSelect s.selectWord = .fin ↔ s.st = .busy ∧ s.k = s.len ∧ s.p = 7)) ∧
    (s.st = .busy → s.k = s.len → s.p = 7 →
      ∃ t, exec .fin s = .next t ∧ t = { s with st := .done } ∧ doneO t = 1#1 ∧ busyO t = 0#1 ∧
        (∀ n, digO n t = BitVec.ofNat 64 (packBytes s.h.toList) ∧
          hexO n t = BitVec.ofNat 128 (packBytes (hexEnc (s.h.toList.map BitVec.toNat)))) ∧
        ∀ S, Inv s → HoldsMessage s S → t.h = digestAcc S ∧ hexCh t = digestHex S)

/-- R58, as the row `HOLD` of the table: no step, nothing in the block changes. -/
def Obligations.HoldLeavesTheState : Prop :=
  ∀ s : State, s.st ≠ .busy → exec .hold s = .next s

/-- The model's stops, all of them outside what the spec gives a meaning to, and when each is met: a micro-operation the
state does not select (log 9), a cell of the message never written (log 7), an append above the buffer (log 12). The
model's choice. -/
def Obligations.ModelStopsOnlyThere : Prop :=
  ∀ (i : Instr) (s : State),
    (∀ r, exec i s = .refused r ↔
      r = .microOpNotSelected ∧ i.format = .seq ∧ decodeSelect s.selectWord ≠ i) ∧
    (∀ f, exec i s = .fault f ↔
      (f = .msgCellUnwritten ∧ i = .fold ∧ s.st = .busy ∧ s.k < s.len ∧ s.msg.read s.k = none) ∨
      (f = .msgAddressAbsent ∧ (∃ b, i = .ldb b) ∧ (s.st = .idle ∨ s.st = .done) ∧ Config.MSG_CAP < s.len))

/-! ### Faults of the block -/

/-- R87: an illegal word in `BUSY` reports `E_ILLCMD`, an `LDB` in `BUSY` with a full buffer reports `E_BUSY`, and in
`FAULT` no check is made. -/
def Obligations.FaultChecksKeepTheirOrder : Prop :=
  ∀ (s : State) (w : CmdWord) (rest : List Event), s.sched = .host (commandPins w) :: rest →
    (s.st = .busy → decodeCommand w ≠ .ok .nop → decodeCommand w ≠ .ok .rst →
      step s = .next { s with
        st := .fault
        ecause := if (decodeCommand w).isOk then .eBusy else .eIllCmd
        sched := rest }) ∧
    (∀ b, s.st = .busy → s.len = Config.MSG_CAP → decodeCommand w = .ok (.ldb b) →
      step s = .next { s with st := .fault, ecause := .eBusy, sched := rest }) ∧
    (s.st = .fault → decodeCommand w ≠ .ok .rst → step s = .next { s with sched := rest })

/-- R88: whatever step enters `FAULT` writes `ST` and `ECAUSE` and nothing else of the block; the sequencer has no further
step (R58) and the result ports are unspecified (R20, R83). That its turn there is a step without effect is the model's
choice (log 11), as is the free value by the sampling's number (log 8). -/
def Obligations.FaultEntryWritesStAndEcauseOnly : Prop :=
  ∀ s t : State, step s = .next t → s.st ≠ .fault → t.st = .fault →
    t = { s with st := .fault, ecause := t.ecause, sched := s.sched.tail } ∧ t.ecause ≠ .eNone ∧
    faultO t = 1#1 ∧ busyO t = 0#1 ∧ doneO t = 0#1 ∧
    seqStep t = .next t ∧ ∀ n, digO n t = Config.freeDigO n ∧ hexO n t = Config.freeHexO n

/-- R85: the complete list of the faults, who raises each and when. -/
def Obligations.FaultsAreTheThreeListed : Prop :=
  ∀ s t : State, step s = .next t → s.st ≠ .fault → t.st = .fault →
    ∃ w rest, s.sched = .host (commandPins w) :: rest ∧
      ((t.ecause = .eIllCmd ∧ (∃ e, decodeCommand w = .error e)) ∨
       (t.ecause = .eBusy ∧ s.st = .busy ∧
         (decodeCommand w = .ok .clrm ∨ (∃ b, decodeCommand w = .ok (.ldb b)) ∨ decodeCommand w = .ok .go)) ∨
       (t.ecause = .eOvf ∧ (s.st = .idle ∨ s.st = .done) ∧ (∃ b, decodeCommand w = .ok (.ldb b)) ∧
         s.len = Config.MSG_CAP ∧ t.len = Config.MSG_CAP))

/-- R89, R90: a step from `FAULT` either is a reset or an `RST`, and gives the reset values, or changes nothing in the
block. -/
def Obligations.OnlyResetLeavesFault : Prop :=
  ∀ s t : State, step s = .next t → s.st = .fault →
    (∃ pins rest, s.sched = .host pins :: rest ∧
      (pins.rst = true ∨ (pins.cmdValid = true ∧ pins.cmd = 0x100#11)) ∧
      t = { h := Vector.replicate 8 0#8, p := 0, k := 0, len := 0, st := .idle, ecause := .eNone,
            msg := s.msg, sched := rest }) ∨
    (t = { s with sched := s.sched.tail } ∧
      ∀ pins rest, s.sched = .host pins :: rest → pins.rst = false ∧ (pins.cmdValid = true → pins.cmd ≠ 0x100#11))

/-- R90: in `FAULT` the first cause is kept, and nothing in the block changes, over any schedule without reset and `RST`. -/
def Obligations.FaultIsKeptOverAnySchedule : Prop :=
  ∀ (n : Nat) (s : State), s.st = .fault →
    (∀ pins, Event.host pins ∈ s.sched → pins.rst = false ∧ (pins.cmdValid = true → pins.cmd ≠ 0x100#11)) →
    ∃ t, runSteps n s = .next t ∧ t = { s with sched := s.sched.drop n }

/-- R87, R102: a command beside the `FIN` of a run: before it, it sees `BUSY` and faults; after it, it sees `DONE`. -/
def Obligations.CommandBesideFinSeesBothOrders : Prop :=
  ∀ (s : State) (w : CmdWord) (i : Instr), decodeCommand w = .ok i → i ≠ .nop → i ≠ .rst →
    s.st = .busy → s.k = s.len → s.p = 7 → s.len < Config.MSG_CAP →
    (s.sched = [.host (commandPins w), .seq] →
      runSteps 2 s = .next { s with st := .fault, ecause := .eBusy, sched := [] }) ∧
    (s.sched = [.seq, .host (commandPins w)] →
      runSteps 2 s = exec i { s with st := .done, sched := [] } ∧
      ∃ t, runSteps 2 s = .next t ∧ t.ecause = s.ecause ∧ t.st = if i = .go then .busy else .idle)

/-! ### Whole-machine rules -/

/-- R24: the reset state and the ports that follow it. -/
def Obligations.ResetStateIsAsListed : Prop :=
  State.reset.h.toList = [0#8, 0#8, 0#8, 0#8, 0#8, 0#8, 0#8, 0#8] ∧ State.reset.p = 0 ∧ State.reset.k = 0 ∧
  State.reset.len = 0 ∧ State.reset.st = .idle ∧ State.reset.ecause = .eNone ∧
  stO State.reset = 0#2 ∧ busyO State.reset = 0#1 ∧ doneO State.reset = 0#1 ∧ faultO State.reset = 0#1 ∧
  ecauseO State.reset = 0#2 ∧ lenO State.reset = 0

/-- The reset state meets the invariants of R23. -/
def Obligations.ResetMeetsTheInvariants : Prop := Inv State.reset

/-- R23: every step from a state that meets the invariants gives a state that meets them. -/
def Obligations.StepKeepsTheInvariants : Prop :=
  ∀ s t : State, Inv s → step s = .next t → Inv t

/-- From a state that meets the invariants the machine never stops: every step gives a next state, for every schedule. Nor
is a move that the spec enables ever stuck (R9, R106): the host can make every move in every state, the sequencer its
own exactly in `BUSY`. -/
def Obligations.StepNeverStopsUnderTheInvariants : Prop :=
  ∀ s : State, Inv s →
    (∃ t, step s = .next t) ∧
    (∀ pins, ∃ t, Transition (some (.host pins)) s t) ∧
    ((∃ t, Transition (some .seq) s t) ↔ s.st = .busy)

/-- R16, R33, R101: while a run goes on, neither `LEN` nor any cell of `MSG` changes; what ends the run without `FIN` is a
fault, `RST` or reset, and none of them writes `MSG`. -/
def Obligations.MessageIsImmutableDuringARun : Prop :=
  ∀ s t : State, step s = .next t → s.st = .busy →
    t.msg = s.msg ∧ (t.st = .busy ∨ t.st = .done ∨ t.st = .fault → t.len = s.len) ∧
    (t.st = .idle → ∃ pins rest, s.sched = .host pins :: rest ∧ pins.recovers = true)

/-- R82, R61: `BUSY` is entered by `GO` alone, from `IDLE` or `DONE`; `DONE` is entered by `FIN` alone, a step of the
sequencer at the end of the last pass, which keeps everything but `ST`. -/
def Obligations.OnlyGoStartsAndOnlyFinCompletes : Prop :=
  ∀ s t : State, step s = .next t →
    (s.st ≠ .busy → t.st = .busy →
      (s.st = .idle ∨ s.st = .done) ∧ ∃ rest, s.sched = .host (commandPins 0x400#11) :: rest ∧
        t = { s with h := Vector.replicate 8 0#8, p := 0, k := 0, st := .busy, sched := rest }) ∧
    (s.st ≠ .done → t.st = .done →
      s.st = .busy ∧ s.len ≤ s.k ∧ s.p = 7 ∧ (∀ pins rest, s.sched ≠ .host pins :: rest) ∧
        exec .fin { s with sched := t.sched } = .next t ∧ t = { s with st := .done, sched := t.sched })

/-- R11: the writers of the accumulators. They are zeroed by `GO`, `RST` and the reset event alone, and otherwise written by
`FOLD` alone, a step of the sequencer, at `H[P]`. -/
def Obligations.AccumulatorsChangeOnlyByFoldOrToZero : Prop :=
  ∀ s t : State, step s = .next t →
    t.h = s.h ∨
    (t.h = Vector.replicate 8 0#8 ∧ ∃ pins rest, s.sched = .host pins :: rest ∧
      (pins.recovers = true ∨ (pins = commandPins 0x400#11 ∧ (s.st = .idle ∨ s.st = .done)))) ∨
    (s.st = .busy ∧ s.k < s.len ∧ (∀ pins rest, s.sched ≠ .host pins :: rest) ∧
      exec .fold { s with sched := t.sched } = .next t ∧ ∀ j : Fin 8, j ≠ s.p → t.h[j] = s.h[j])

/-- R27: a cell of `MSG` is written by `LDB` alone, at the old `LEN`, below `MSG_CAP`, with its byte. -/
def Obligations.OnlyLdbWritesTheMessageBuffer : Prop :=
  ∀ s t : State, step s = .next t →
    t.msg = s.msg ∨
      ∃ b rest, s.sched = .host (commandPins (0x300#11 + b.zeroExtend 11)) :: rest ∧
        (s.st = .idle ∨ s.st = .done) ∧ s.len < Config.MSG_CAP ∧ t.len = s.len + 1 ∧
        t.msg.read s.len = some b ∧ ∀ a, a ≠ s.len → t.msg.read a = s.msg.read a

/-- R38: cells of `MSG` at or above `LEN` do not reach anything else of the state: two states that differ only there step
to two states that differ only there. -/
def Obligations.CellsAboveLenReachNothing : Prop :=
  ∀ s s' t : State, AgreeBelowLen s s' → step s = .next t →
    ∃ t', step s' = .next t' ∧ AgreeBelowLen t t'

/-! ### Ports -/

/-- R20: the status ports in every state, with the codes of R14 and R15; `done_o` and `fault_o` are never both 1 (R91). -/
def Obligations.StatusPortsDecodeTheStatus : Prop :=
  ∀ s : State,
    (stO s = match s.st with | .idle => 0b00#2 | .busy => 0b01#2 | .done => 0b10#2 | .fault => 0b11#2) ∧
    (ecauseO s = match s.ecause with | .eNone => 0#2 | .eIllCmd => 1#2 | .eBusy => 2#2 | .eOvf => 3#2) ∧
    (busyO s = 1#1 ↔ s.st = .busy) ∧ (doneO s = 1#1 ↔ s.st = .done) ∧ (faultO s = 1#1 ↔ s.st = .fault) ∧
    ¬ (doneO s = 1#1 ∧ faultO s = 1#1)

/-- R6, R16, R20: `LENW` bits hold every length up to `MSG_CAP`: `len_o` is `LEN`. -/
def Obligations.LenPortShowsLen : Prop :=
  ∀ s : State, s.len ≤ Config.MSG_CAP → (lenO s).toNat = s.len

/-- R20, R28, R47, R71: in `DONE`, whatever the sampling, accumulator `j` is `dig_o[8j+7:8j]` and character `c` is
`hex_o[8c+7:8c]`, accumulator `j` giving the characters `2j` (high nibble) and `2j + 1` (low nibble). -/
def Obligations.ResultPortsInDone : Prop :=
  ∀ (s : State) (n : Nat), s.st = .done → ∀ j : Fin 8,
    (digO n s).extractLsb' (8 * j.val) 8 = s.h[j] ∧
    (hexO n s).extractLsb' (8 * (2 * j.val)) 8 = hexchar (s.h[j].extractLsb' 4 4) ∧
    (hexO n s).extractLsb' (8 * (2 * j.val + 1)) 8 = hexchar (s.h[j].extractLsb' 0 4)

/-- R83: outside `DONE` each sampling of the result ports draws a free value. -/
def Obligations.ResultPortsDrawOutsideDone : Prop :=
  ∀ (s : State) (n : Nat), s.st ≠ .done → digO n s = Config.freeDigO n ∧ hexO n s = Config.freeHexO n

/-! ### The digest and the hex encoder -/

/-- R54, R55: the 9-bit sum and the 14-bit product are exact, so the fold is the mathematical remainder modulo 255, for
every 8-bit `prev` and `b` and every 5-bit coefficient. -/
def Obligations.FoldIsTheExactRemainder : Prop :=
  ∀ (prev b : Byte) (c : Coef),
    (fold prev b c).toNat = ((prev.toNat + b.toNat) * c.toNat) % 255

/-- R56 (informative there): the reduction by folding equals the remainder modulo 255 for every product the datapath can
form. -/
def Obligations.ReductionByFoldingIsTheRemainder : Prop :=
  ∀ t : Nat, t ≤ 9671 → reduceByFolding t = t % 255

/-- R52: the empty digest, and that for a non-empty message the zero-fill has no effect on the result. -/
def Obligations.EmptyMessageDigestsToZero : Prop :=
  digestAcc [] = Vector.replicate 8 0#8 ∧ digestHex [] = List.replicate 16 0x30#8 ∧
  ∀ (S : List Byte) (h : Accs), S ≠ [] → positions.foldl (pass S) h = digestAcc S

/-- R64: the digest of a non-empty message depends on its last byte only. -/
def Obligations.DigestDependsOnTheLastByteOnly : Prop :=
  ∀ (S : List Byte) (hS : S ≠ []), digestAcc S = digestAcc [S.getLast hS]

/-- R65: the closed form of the digest, the recurrence of its multipliers, and its consequences (a) to (e). -/
def Obligations.DigestIsTheMultiplierForm : Prop :=
  (List.range 8).map multiplier = [2, 9, 50, 102, 113, 207, 221, 138] ∧
  (multiplier 0 = 2 ∧ ∀ i : Fin 7, multiplier (i.val + 1) =
    ((multiplier i.val + 1) * [2, 3, 5, 7, 11, 13, 17, 19].getD (i.val + 1) 0) % 255) ∧
  (∀ (S : List Byte) (hS : S ≠ []) (i : Fin 8),
    (digestAcc S)[i].toNat =
      ([2, 9, 50, 102, 113, 207, 221, 138].getD i.val 0 * (S.getLast hS).toNat) % 255) ∧
  (digestAcc [0#8] = Vector.replicate 8 0#8 ∧ digestAcc [255#8] = Vector.replicate 8 0#8 ∧
    digestAcc [] = Vector.replicate 8 0#8) ∧
  (∀ b c : Byte, digestAcc [b] = digestAcc [c] ↔ b.toNat % 255 = c.toNat % 255) ∧
  (∀ S : List Byte, 51 ∣ (digestAcc S)[3].toNat ∧ 17 ∣ (digestAcc S)[6].toNat) ∧
  (∀ (S : List Byte) (i : Fin 8), (digestAcc S)[i] ≠ 0xFF#8 ∧
    ¬ ((digestHex S)[2 * i.val]? = some 0x66#8 ∧ (digestHex S)[2 * i.val + 1]? = some 0x66#8))

/-- R66: the byte-major program ends with the same accumulators for every message. -/
def Obligations.ByteMajorGivesTheSameDigest : Prop :=
  ∀ S : List Byte, digestByteMajor S = digestAcc S

/-- R70: `HexEnc` renders value `j`, masked to its low 8 bits, as the characters `2j` and `2j + 1`, high digit first. -/
def Obligations.HexEncRendersEachValue : Prop :=
  ∀ V : List Nat, (hexEnc V).length = 2 * V.length ∧
    ∀ (j : Nat) (hj : j < V.length),
      (hexEnc V)[2 * j]? = some (hexchar (BitVec.ofNat 4 (V[j] % 256 / 16))) ∧
      (hexEnc V)[2 * j + 1]? = some (hexchar (BitVec.ofNat 4 (V[j] % 16)))

/-- R73: the length is even, only the sixteen digit codes occur, and the encoder is injective on byte sequences; a digest
string has 16 characters. -/
def Obligations.HexEncShapeAndInjectivity : Prop :=
  (∀ V : List Nat, (hexEnc V).length = 2 * V.length ∧
    ∀ x ∈ hexEnc V, (0x30 ≤ x.toNat ∧ x.toNat ≤ 0x39) ∨ (0x61 ≤ x.toNat ∧ x.toNat ≤ 0x66)) ∧
  (∀ V W : List Byte, hexEnc (V.map BitVec.toNat) = hexEnc (W.map BitVec.toNat) → V = W) ∧
  (∀ S : List Byte, (digestHex S).length = 16)

/-- R74: reading a digest string back gives the accumulators. -/
def Obligations.HexDecInvertsTheEncoder : Prop :=
  ∀ V : List Byte, hexDec (hexEnc (V.map BitVec.toNat)) = some V

/-- R75: the two characters of one accumulator are never `ff` in a digest string, nor in a state that meets the
invariants; the encoder itself gives `ff` for 255. -/
def Obligations.NoAccumulatorReadsFF : Prop :=
  (∀ (S : List Byte) (j : Nat), j < 8 →
    ¬ ((digestHex S)[2 * j]? = some 0x66#8 ∧ (digestHex S)[2 * j + 1]? = some 0x66#8)) ∧
  (∀ (s : State) (j : Nat), Inv s → j < 8 →
    ¬ ((hexCh s)[2 * j]? = some 0x66#8 ∧ (hexCh s)[2 * j + 1]? = some 0x66#8)) ∧
  hexEnc [255] = [0x66#8, 0x66#8]

/-! ### Runs -/

/-- R62: the variant of a run falls by one at every `FOLD` and `NEXT` and is 1 exactly when `FIN` is enabled. -/
def Obligations.RunVariantFallsByOne : Prop :=
  ∀ s : State, Inv s → s.st = .busy →
    (runVariant s = 1 ↔ decodeSelect s.selectWord = .fin) ∧
    ∃ t, seqStep s = .next t ∧
      ((t.st = .busy ∧ runVariant t + 1 = runVariant s) ∨ (t.st = .done ∧ runVariant s = 1))

/-- R62: after `GO` an undisturbed run is in `BUSY` for exactly `8 * LEN + 8` steps and then in `DONE`. -/
def Obligations.RunTakesEightLenPlusEightSteps : Prop :=
  ∀ (s : State) (S : List Byte), HoldsMessage s S → (s.st = .idle ∨ s.st = .done) →
    s.sched = [.host (commandPins 0x400#11)] →
    (∀ n, n < 8 * S.length + 8 → ∃ t, runSteps (1 + n) s = .next t ∧ t.st = .busy) ∧
    ∃ t, runSteps (1 + (8 * S.length + 8)) s = .next t ∧ t.st = .done

/-- R63: a run with no host command other than `NOP` ends in `DONE` with the digest in `H`, `LEN` and `MSG` unchanged, for
every interleaving of the host's idle moves and waits with the sequencer's turns. On a finite schedule the sequencer has
turns enough where the host waits or where as many are listed (logs 3, 16); in an execution of any length weak fairness gives
them (R106). -/
def Obligations.QuietRunEndsInTheDigest : Prop :=
  (∀ (s : State) (S : List Byte) (es : List Event), HoldsMessage s S → (s.st = .idle ∨ s.st = .done) →
    s.sched = .host (commandPins 0x400#11) :: es → (∀ e ∈ es, e.quiet = true) →
    (.wait ∈ es ∨ 8 * S.length + 8 ≤ seqTurns es) →
    ∃ m t, runSteps m s = .next t ∧ (.wait ∉ es → m = 1 + es.length) ∧ t.sched = [] ∧
      t.st = .done ∧ t.h = digestAcc S ∧ t.len = s.len ∧ t.msg = s.msg ∧
      ∀ n, hexO n t = BitVec.ofNat 128 (packBytes (digestHex S))) ∧
  (∀ (state : Nat → State) (move : Nat → Option Move) (S : List Byte), IsExecution state move → WeaklyFair state move →
    HoldsMessage (state 0) S → ((state 0).st = .idle ∨ (state 0).st = .done) →
    move 0 = some (.host (commandPins 0x400#11)) →
    (∀ n pins, 0 < n → (state n).st = .busy → move n = some (.host pins) → (Event.host pins).quiet = true) →
    ∃ n, (∀ i, 0 < i → i < n → (state i).st = .busy) ∧ (state n).st = .done ∧ (state n).h = digestAcc S ∧
      (state n).len = (state 0).len ∧ (state n).msg = (state 0).msg ∧
      ∀ m, hexO m (state n) = BitVec.ofNat 128 (packBytes (digestHex S)))

/-- R67: a `GO` in `DONE` recomputes the same digest, and the block shows the same result ports after it (logs 3, 16 as in
`QuietRunEndsInTheDigest`). -/
def Obligations.GoInDoneRecomputesTheSameDigest : Prop :=
  ∀ (s : State) (es : List Event), Inv s → s.st = .done →
    s.sched = .host (commandPins 0x400#11) :: es → (∀ e ∈ es, e.quiet = true) →
    (.wait ∈ es ∨ 8 * s.len + 8 ≤ seqTurns es) →
    ∃ m t, runSteps m s = .next t ∧ t = { s with sched := [] } ∧ ∀ m n, digO m t = digO n s ∧ hexO m t = hexO n s

/-- R84: the protocol, from any state in `IDLE` or `DONE`: no step of it faults, it takes `LEN + 2` commands and
`8 * LEN + 8` turns of the sequencer (R105), and it ends in `DONE` with `DigestHex(S)` on `hex_o`; and from any state at all,
`FAULT` among them, with `rst` put first. The host's `wait` is the model's event (log 3). -/
def Obligations.ProtocolDeliversTheDigest : Prop :=
  ∀ (s : State) (S : List Byte), S.length ≤ Config.MSG_CAP →
    ((s.st = .idle ∨ s.st = .done) → s.sched = digestProgram S →
      (∀ n, n ≤ (S.length + 2) + (8 * S.length + 8) → ∃ t, runSteps n s = .next t ∧ t.st ≠ .fault) ∧
      ∃ t, runSteps ((S.length + 2) + (8 * S.length + 8)) s = .next t ∧ t.st = .done ∧ HoldsMessage t S ∧
        ∀ n, hexO n t = BitVec.ofNat 128 (packBytes (digestHex S))) ∧
    (s.sched = .host (commandPins 0x100#11) :: digestProgram S →
      (∀ n, n ≤ (S.length + 2) + (8 * S.length + 8) → ∃ t, runSteps (1 + n) s = .next t ∧ t.st ≠ .fault) ∧
      ∃ t, runSteps (1 + ((S.length + 2) + (8 * S.length + 8))) s = .next t ∧ t.st = .done ∧ HoldsMessage t S ∧
        ∀ n, hexO n t = BitVec.ofNat 128 (packBytes (digestHex S)))

/-- R34 (b): the `n`-th `LDB` after the message was emptied defines byte `n - 1`; a message that fills the buffer is
followed by `E_OVF`. -/
def Obligations.LoadingDefinesTheMessage : Prop :=
  ∀ (s : State) (S : List Byte) (b : Byte), (s.st = .idle ∨ s.st = .done) → s.len = 0 → S.length ≤ Config.MSG_CAP →
    s.sched = (S ++ [b]).map (fun x => .host (commandPins (0x300#11 + x.zeroExtend 11))) →
    (∃ t, runSteps S.length s = .next t ∧ HoldsMessage t S ∧ (t.st = .idle ∨ t.st = .done) ∧ t.h = s.h ∧
      t.ecause = s.ecause) ∧
    (S.length = Config.MSG_CAP →
      ∃ t, runSteps (S.length + 1) s = .next t ∧ HoldsMessage t S ∧ t.st = .fault ∧ t.ecause = .eOvf)

/-- R23 (vi), R72: over every run from reset, under every schedule, a state in `DONE` shows the digest of the message it
holds. -/
def Obligations.DoneAlwaysShowsTheDigest : Prop :=
  ∀ (es : List Event) (n : Nat) (t : State), runSteps n { State.reset with sched := es } = .next t → t.st = .done →
    ∃ S, HoldsMessage t S ∧ t.h = digestAcc S ∧ hexCh t = digestHex S

/-- R106: from a state that meets the invariants in `BUSY` a run ends, whatever the host does. Under every schedule it does
(the sequencer moves when the listed moves are used up, logs 2, 16), within the schedule if that gives the sequencer as many
turns as the variant; and in every weakly fair execution it ends after at most `8 * LEN + 8` steps of `SEQ`, by `FIN` in
`DONE`, by a host command in `FAULT`, or by `RST` or reset in `IDLE`. -/
def Obligations.EveryRunEnds : Prop :=
  (∀ s : State, Inv s → s.st = .busy →
    ∃ m t, m ≤ s.sched.length + runVariant s ∧ runSteps m s = .next t ∧ t.st ≠ .busy) ∧
  (∀ s : State, Inv s → s.st = .busy → .wait ∉ s.sched → runVariant s ≤ seqTurns s.sched →
    ∃ m t, m ≤ s.sched.length ∧ runSteps m s = .next t ∧ t.st ≠ .busy) ∧
  (∀ (state : Nat → State) (move : Nat → Option Move), IsExecution state move → WeaklyFair state move → Inv (state 0) →
    ∀ n, (state n).st = .busy → ∃ m, n ≤ m ∧ (∀ i, n ≤ i → i ≤ m → (state i).st = .busy) ∧
      seqStepsBetween move n (m + 1) ≤ 8 * (state n).len + 8 ∧
      ((move m = some .seq ∧ (state (m + 1)).st = .done) ∨
       (∃ pins, move m = some (.host pins) ∧
        ((state (m + 1)).st = .fault ∨ (pins.recovers = true ∧ (state (m + 1)).st = .idle)))))

/-! ### The notation for host programs -/

/-- R48: the word of each line, and that an operand outside its range is an assembly error. -/
def Obligations.AssemblerLinesGiveTheirWords : Prop :=
  AsmLine.nop.assemble = .ok [.transaction 0x000#11] ∧ AsmLine.rst.assemble = .ok [.transaction 0x100#11] ∧
  AsmLine.clrm.assemble = .ok [.transaction 0x200#11] ∧ AsmLine.go.assemble = .ok [.transaction 0x400#11] ∧
  (∀ b : Nat, b ≤ 255 → ∃ w, (AsmLine.ldb b).assemble = .ok [.transaction w] ∧ w.toNat = 0x300 + b ∧
    decodeCommand w = .ok (.ldb (BitVec.ofNat 8 b))) ∧
  (∀ b : Nat, 255 < b → (AsmLine.ldb b).assemble = .error .operandOutOfRange) ∧
  (∀ w : CmdWord, (AsmLine.word w.toNat).assemble = .ok [.transaction w])

/-- R49: the expansions of `msg` and `digest`, and that `wait` and `sample` put no word on `cmd_i`. -/
def Obligations.PseudoInstructionsExpand : Prop :=
  ∀ bs : List Nat, (∀ b ∈ bs, b ≤ 255) →
    (AsmLine.msg bs).assemble =
      .ok (.transaction 0x200#11 :: bs.map fun b => .transaction (BitVec.ofNat 11 (0x300 + b))) ∧
    (AsmLine.digest bs).expand = (AsmLine.msg bs).expand ++ AsmLine.go.expand ++ AsmLine.wait.expand ∧
    (AsmLine.digest bs).assemble = .ok (AsmLine.digest bs).expand ∧
    (∀ w, HostAction.transaction w ∉ AsmLine.wait.expand ∧ HostAction.transaction w ∉ AsmLine.sample.expand)

/-! ### Executions -/

/-- R4, R9: the executions of the labelled transition system are the interleavings of the two agents, finite and infinite.
Every step of the machine is a move of one agent, or of nobody; a finite beginning of an execution is a run of the machine
under the schedule of its moves; every sequence of moves, in any order and for ever, is an execution from every state that
meets the invariants, but for moves of `SEQ` that are not enabled; the invariants hold along it; and a host that polls with
`NOP` for ever is an execution, which weak fairness (R106) excludes exactly if it starves a run. That nobody moves for a
while, as in the model's own bookkeeping steps, is log 11's stuttering. -/
def Obligations.ExecutionsInterleaveTheAgents : Prop :=
  (∀ s t : State, step s = .next t → ∃ m, Transition m { s with sched := t.sched } t) ∧
  (∀ (state : Nat → State) (move : Nat → Option Move), IsExecution state move →
    ∀ n, runSteps (scheduleOfMoves move n).length { state 0 with sched := scheduleOfMoves move n } =
      .next { state n with sched := [] }) ∧
  (∀ s : State, Inv s → ∀ wish : Nat → Option Move, ∃ (state : Nat → State) (move : Nat → Option Move),
    state 0 = s ∧ IsExecution state move ∧ ∀ n, move n = enabledOr (wish n) (state n)) ∧
  (∀ (state : Nat → State) (move : Nat → Option Move), IsExecution state move → Inv (state 0) → ∀ n, Inv (state n)) ∧
  (∀ s : State, IsExecution (fun _ => s) (fun _ => some (.host (commandPins 0x000#11))) ∧
    (WeaklyFair (fun _ => s) (fun _ => some (.host (commandPins 0x000#11))) ↔ s.st ≠ .busy))
end

