-- ==== Sys2Proof/Laws/Digest.lean ====
section
/-! SUPPORT. The fold and the passes of the digest: what one iteration and one pass write. -/

namespace Sys2Proof.Machine

theorem fold_lt (prev b : Byte) (c : Coef) : (fold prev b c).toNat < 255 := by
  unfold fold
  simp only [BitVec.toNat_ofNat, Config.MOD]
  omega

@[simp] theorem zeroAccs_get (i : Nat) (h : i < 8) : zeroAccs[i] = 0#8 := by simp [zeroAccs]

@[simp] theorem foldAt_get_self (i : Fin 8) (h : Accs) (b : Byte) :
    (foldAt i h b)[i.val] = fold (prevAcc h i) b (coefAt i) := by simp [foldAt]

theorem foldAt_get_other (i : Fin 8) (h : Accs) (b : Byte) (j : Nat) (hj : j < 8) (hij : j ≠ i.val) :
    (foldAt i h b)[j] = h[j] := by
  simp [foldAt, Ne.symm hij]

/-- `prev` does not depend on the accumulator the pass writes. -/
theorem prevAcc_foldAt (i : Fin 8) (h : Accs) (b : Byte) : prevAcc (foldAt i h b) i = prevAcc h i := by
  unfold prevAcc
  split
  · rfl
  · exact foldAt_get_other i h b _ (by omega) (by omega)

theorem prevAcc_congr (h h' : Accs) (i : Fin 8) (hh : ∀ j : Fin 8, j < i → h[j] = h'[j]) :
    prevAcc h i = prevAcc h' i := by
  unfold prevAcc
  split
  · rfl
  · rename_i hi
    exact hh ⟨i.val - 1, by omega⟩ (Fin.lt_def.mpr (by simp; omega))

/-- A pass leaves every accumulator but its own as it was. -/
theorem pass_get_other (S : List Byte) (h : Accs) (i : Fin 8) (j : Nat) (hj : j < 8) (hij : j ≠ i.val) :
    (pass S h i)[j] = h[j] := by
  induction S generalizing h with
  | nil => rfl
  | cons b S ih =>
    change (pass S (foldAt i h b) i)[j] = h[j]
    rw [ih, foldAt_get_other i h b j hj hij]

/-- A pass over a message that ends in `b` leaves in its accumulator the fold of `prev` and `b`. -/
theorem pass_get_self (S : List Byte) (b : Byte) (h : Accs) (i : Fin 8) :
    (pass (S ++ [b]) h i)[i.val] = fold (prevAcc h i) b (coefAt i) := by
  induction S generalizing h with
  | nil => exact foldAt_get_self i h b
  | cons c S ih =>
    change (pass (S ++ [b]) (foldAt i h c) i)[i.val] = _
    rw [ih, prevAcc_foldAt]

@[simp] theorem pass_nil (h : Accs) (i : Fin 8) : pass [] h i = h := rfl

/-- Extensionality of the eight accumulators over their positions. -/
theorem accs_ext (h h' : Accs) (hh : ∀ j : Fin 8, h[j] = h'[j]) : h = h' := by
  ext i hi
  have := hh ⟨i, hi⟩
  simp only [Fin.getElem_fin] at this
  rw [this]

end Sys2Proof.Machine
end

