-- ==== Sys2Proof/Laws/Memory.lean ====
section
/-! SUPPORT. The message buffer: read after write, and the canonical form. -/

namespace Sys2Proof.Machine

@[simp] theorem Memory.read_nil (a : Nat) : Memory.read [] a = none := rfl

@[simp] theorem Memory.read_write_same (m : Memory) (a : Nat) (v : Byte) : (m.write a v).read a = some v := by
  induction m with
  | nil => simp [Memory.write, Memory.read]
  | cons c m ih =>
    by_cases h1 : a < c.1
    · simp [Memory.write, Memory.read, h1]
    · by_cases h2 : a = c.1
      · simp [Memory.write, Memory.read, h2]
      · simpa [Memory.write, Memory.read, h1, h2] using ih

theorem Memory.read_write_other (m : Memory) (a b : Nat) (v : Byte) (h : b ≠ a) :
    (m.write a v).read b = m.read b := by
  induction m with
  | nil => simp [Memory.write, Memory.read, h, unlistedCell]
  | cons c m ih =>
    by_cases h1 : a < c.1
    · simp [Memory.write, Memory.read, h1, h]
    · by_cases h2 : a = c.1
      · simp [Memory.write, Memory.read, h2, h2 ▸ h]
      · simp [Memory.write, Memory.read, h1, h2, ih]

theorem Memory.read_write (m : Memory) (a b : Nat) (v : Byte) :
    (m.write a v).read b = if b = a then some v else m.read b := by
  by_cases h : b = a
  · simp [h]
  · simp [h, Memory.read_write_other m a b v h]

/-- Writing above `x` keeps every address above `x`. -/
theorem Memory.above_write (x : Nat) (m : Memory) (a : Nat) (v : Byte) (hx : x < a) (hm : m.above x = true) :
    (m.write a v).above x = true := by
  induction m with
  | nil => simpa [Memory.write, Memory.above] using hx
  | cons c m ih =>
    simp only [Memory.above, List.all_cons, Bool.and_eq_true, decide_eq_true_eq] at hm
    by_cases h1 : a < c.1
    · simpa [Memory.write, Memory.above, h1, hx] using hm
    · by_cases h2 : a = c.1
      · simpa [Memory.write, Memory.above, h2] using hm
      · have := ih (by simpa [Memory.above] using hm.2)
        simp only [Memory.above] at this
        simp [Memory.write, Memory.above, h1, h2, hm.1, this]

theorem Memory.above_mono (x y : Nat) (m : Memory) (hxy : x ≤ y) (hm : m.above y = true) : m.above x = true := by
  simp only [Memory.above, List.all_eq_true, decide_eq_true_eq] at hm ⊢
  exact fun c hc => lt_of_le_of_lt hxy (hm c hc)

@[simp] theorem Memory.wf_nil : Memory.wf [] = true := rfl

/-- A write keeps the canonical form. -/
theorem Memory.wf_write (m : Memory) (a : Nat) (v : Byte) (hm : m.wf = true) : (m.write a v).wf = true := by
  induction m with
  | nil => simp [Memory.write, Memory.wf, Memory.above]
  | cons c m ih =>
    simp only [Memory.wf, Bool.and_eq_true] at hm
    by_cases h1 : a < c.1
    · have := Memory.above_mono a c.1 m h1.le hm.1
      simp only [Memory.above] at this
      simp [Memory.write, Memory.wf, Memory.above, h1, hm.2, this]
      simpa [Memory.above] using hm.1
    · by_cases h2 : a = c.1
      · simp [Memory.write, Memory.wf, h2, hm]
      · have := Memory.above_write c.1 m a v (by omega) hm.1
        simp [Memory.write, Memory.wf, h1, h2, this, ih hm.2]

/-- A canonical buffer has no cell below its first bound. -/
theorem Memory.read_of_above (x : Nat) (m : Memory) (hm : m.above x = true) : m.read x = none := by
  induction m with
  | nil => rfl
  | cons c m ih =>
    simp only [Memory.above, List.all_cons, Bool.and_eq_true, decide_eq_true_eq] at hm
    have : x ≠ c.1 := by omega
    simpa [Memory.read, this] using ih (by simpa [Memory.above] using hm.2)

/-- Canonical buffers that read alike are equal data. -/
theorem Memory.ext_of_wf (m n : Memory) (hm : m.wf = true) (hn : n.wf = true) (h : ∀ a, m.read a = n.read a) :
    m = n := by
  induction m generalizing n with
  | nil =>
    cases n with
    | nil => rfl
    | cons d n => simpa [Memory.read, unlistedCell] using h d.1
  | cons c m ih =>
    cases n with
    | nil => simpa [Memory.read, unlistedCell] using h c.1
    | cons d n =>
      simp only [Memory.wf, Bool.and_eq_true] at hm hn
      have hc := Memory.read_of_above c.1 m hm.1
      have hd := Memory.read_of_above d.1 n hn.1
      have key : c.1 = d.1 := by
        rcases lt_trichotomy c.1 d.1 with hlt | heq | hgt
        · have := h c.1
          have hn' := Memory.read_of_above c.1 n (Memory.above_mono _ _ _ hlt.le hn.1)
          simp [Memory.read, hlt.ne, hn'] at this
        · exact heq
        · have := h d.1
          have hm' := Memory.read_of_above d.1 m (Memory.above_mono _ _ _ hgt.le hm.1)
          simp [Memory.read, hgt.ne, hm'] at this
      have hv : c.2 = d.2 := by simpa [Memory.read, key] using h c.1
      have : m = n := ih n hm.2 hn.2 fun a => by
        by_cases ha : a = c.1
        · rw [ha, hc, key, hd]
        · simpa [Memory.read, ha, key ▸ ha] using h a
      rw [this, Prod.ext key hv]

end Sys2Proof.Machine
end

