-- ==== Sys2Proof/Laws/State.lean ====
section
/-! SUPPORT. One lemma per field per register update of Ops.lean, so that no proof unfolds a record update. -/

namespace Sys2Proof.Machine

@[simp] theorem raiseFault_h (c : Cause) (s : State) : (raiseFault c s).h = s.h := rfl
@[simp] theorem raiseFault_p (c : Cause) (s : State) : (raiseFault c s).p = s.p := rfl
@[simp] theorem raiseFault_k (c : Cause) (s : State) : (raiseFault c s).k = s.k := rfl
@[simp] theorem raiseFault_len (c : Cause) (s : State) : (raiseFault c s).len = s.len := rfl
@[simp] theorem raiseFault_st (c : Cause) (s : State) : (raiseFault c s).st = .fault := rfl
@[simp] theorem raiseFault_ecause (c : Cause) (s : State) : (raiseFault c s).ecause = c := rfl
@[simp] theorem raiseFault_msg (c : Cause) (s : State) : (raiseFault c s).msg = s.msg := rfl
@[simp] theorem raiseFault_sched (c : Cause) (s : State) : (raiseFault c s).sched = s.sched := rfl

@[simp] theorem resetRegisters_h (s : State) : (resetRegisters s).h = zeroAccs := rfl
@[simp] theorem resetRegisters_p (s : State) : (resetRegisters s).p = 0 := rfl
@[simp] theorem resetRegisters_k (s : State) : (resetRegisters s).k = 0 := rfl
@[simp] theorem resetRegisters_len (s : State) : (resetRegisters s).len = 0 := rfl
@[simp] theorem resetRegisters_st (s : State) : (resetRegisters s).st = .idle := rfl
@[simp] theorem resetRegisters_ecause (s : State) : (resetRegisters s).ecause = .eNone := rfl
@[simp] theorem resetRegisters_msg (s : State) : (resetRegisters s).msg = s.msg := rfl
@[simp] theorem resetRegisters_sched (s : State) : (resetRegisters s).sched = s.sched := rfl

@[simp] theorem clearMessage_h (s : State) : (clearMessage s).h = s.h := rfl
@[simp] theorem clearMessage_p (s : State) : (clearMessage s).p = s.p := rfl
@[simp] theorem clearMessage_k (s : State) : (clearMessage s).k = s.k := rfl
@[simp] theorem clearMessage_len (s : State) : (clearMessage s).len = 0 := rfl
@[simp] theorem clearMessage_st (s : State) : (clearMessage s).st = .idle := rfl
@[simp] theorem clearMessage_ecause (s : State) : (clearMessage s).ecause = s.ecause := rfl
@[simp] theorem clearMessage_msg (s : State) : (clearMessage s).msg = s.msg := rfl
@[simp] theorem clearMessage_sched (s : State) : (clearMessage s).sched = s.sched := rfl

@[simp] theorem lengthenMessage_h (s : State) : (lengthenMessage s).h = s.h := rfl
@[simp] theorem lengthenMessage_p (s : State) : (lengthenMessage s).p = s.p := rfl
@[simp] theorem lengthenMessage_k (s : State) : (lengthenMessage s).k = s.k := rfl
@[simp] theorem lengthenMessage_len (s : State) : (lengthenMessage s).len = s.len + 1 := rfl
@[simp] theorem lengthenMessage_st (s : State) : (lengthenMessage s).st = .idle := rfl
@[simp] theorem lengthenMessage_ecause (s : State) : (lengthenMessage s).ecause = s.ecause := rfl
@[simp] theorem lengthenMessage_msg (s : State) : (lengthenMessage s).msg = s.msg := rfl
@[simp] theorem lengthenMessage_sched (s : State) : (lengthenMessage s).sched = s.sched := rfl

@[simp] theorem startRun_h (s : State) : (startRun s).h = zeroAccs := rfl
@[simp] theorem startRun_p (s : State) : (startRun s).p = 0 := rfl
@[simp] theorem startRun_k (s : State) : (startRun s).k = 0 := rfl
@[simp] theorem startRun_len (s : State) : (startRun s).len = s.len := rfl
@[simp] theorem startRun_st (s : State) : (startRun s).st = .busy := rfl
@[simp] theorem startRun_ecause (s : State) : (startRun s).ecause = s.ecause := rfl
@[simp] theorem startRun_msg (s : State) : (startRun s).msg = s.msg := rfl
@[simp] theorem startRun_sched (s : State) : (startRun s).sched = s.sched := rfl

@[simp] theorem writeFolded_h (v : Byte) (s : State) : (writeFolded v s).h = s.h.set s.p.val v := rfl
@[simp] theorem writeFolded_p (v : Byte) (s : State) : (writeFolded v s).p = s.p := rfl
@[simp] theorem writeFolded_k (v : Byte) (s : State) : (writeFolded v s).k = s.k + 1 := rfl
@[simp] theorem writeFolded_len (v : Byte) (s : State) : (writeFolded v s).len = s.len := rfl
@[simp] theorem writeFolded_st (v : Byte) (s : State) : (writeFolded v s).st = s.st := rfl
@[simp] theorem writeFolded_ecause (v : Byte) (s : State) : (writeFolded v s).ecause = s.ecause := rfl
@[simp] theorem writeFolded_msg (v : Byte) (s : State) : (writeFolded v s).msg = s.msg := rfl
@[simp] theorem writeFolded_sched (v : Byte) (s : State) : (writeFolded v s).sched = s.sched := rfl

@[simp] theorem nextPass_h (s : State) : (nextPass s).h = s.h := rfl
@[simp] theorem nextPass_p (s : State) : (nextPass s).p = s.p + 1 := rfl
@[simp] theorem nextPass_k (s : State) : (nextPass s).k = 0 := rfl
@[simp] theorem nextPass_len (s : State) : (nextPass s).len = s.len := rfl
@[simp] theorem nextPass_st (s : State) : (nextPass s).st = s.st := rfl
@[simp] theorem nextPass_ecause (s : State) : (nextPass s).ecause = s.ecause := rfl
@[simp] theorem nextPass_msg (s : State) : (nextPass s).msg = s.msg := rfl
@[simp] theorem nextPass_sched (s : State) : (nextPass s).sched = s.sched := rfl

@[simp] theorem finishRun_h (s : State) : (finishRun s).h = s.h := rfl
@[simp] theorem finishRun_p (s : State) : (finishRun s).p = s.p := rfl
@[simp] theorem finishRun_k (s : State) : (finishRun s).k = s.k := rfl
@[simp] theorem finishRun_len (s : State) : (finishRun s).len = s.len := rfl
@[simp] theorem finishRun_st (s : State) : (finishRun s).st = .done := rfl
@[simp] theorem finishRun_ecause (s : State) : (finishRun s).ecause = s.ecause := rfl
@[simp] theorem finishRun_msg (s : State) : (finishRun s).msg = s.msg := rfl
@[simp] theorem finishRun_sched (s : State) : (finishRun s).sched = s.sched := rfl

@[simp] theorem State.busy_eq_true (s : State) : s.busy = true ↔ s.st = .busy := by simp [State.busy]
@[simp] theorem State.done_eq_true (s : State) : s.done = true ↔ s.st = .done := by simp [State.done]
@[simp] theorem State.faulted_eq_true (s : State) : s.faulted = true ↔ s.st = .fault := by simp [State.faulted]
@[simp] theorem State.busy_eq_false (s : State) : s.busy = false ↔ s.st ≠ .busy := by simp [State.busy]
@[simp] theorem State.done_eq_false (s : State) : s.done = false ↔ s.st ≠ .done := by simp [State.done]
@[simp] theorem State.faulted_eq_false (s : State) : s.faulted = false ↔ s.st ≠ .fault := by simp [State.faulted]

end Sys2Proof.Machine
end

