-- ==== Sys2Proof/Laws/Ops.lean ====
section
/-! SUPPORT. One lemma per shared operation that says everything it can do. -/

namespace Sys2Proof.Machine

theorem memRead_of_lt (s : State) (a : Nat) (h : a < s.len) : s.memRead a = s.msg.read a := by
  simp [State.memRead, h]

theorem memWrite_of_lt (cap : Nat) (s : State) (a : Nat) (v : Byte) (h : a < cap) :
    s.memWrite cap a v = some { s with msg := s.msg.write a v } := by
  simp [State.memWrite, h]

theorem whenHostOwns_owned (s : State) (effect : State → Result) (h : s.st = .idle ∨ s.st = .done) :
    whenHostOwns s effect = effect s := by
  rcases h with h | h <;> simp [whenHostOwns, h]

theorem whenHostOwns_busy (s : State) (effect : State → Result) (h : s.st = .busy) :
    whenHostOwns s effect = .next (raiseFault .eBusy s) := by simp [whenHostOwns, h]

theorem whenHostOwns_fault (s : State) (effect : State → Result) (h : s.st = .fault) :
    whenHostOwns s effect = .next s := by simp [whenHostOwns, h]

theorem illegalCommand_fault (s : State) (h : s.st = .fault) : illegalCommand s = s := by
  simp [illegalCommand, h]

theorem illegalCommand_raises (s : State) (h : s.st ≠ .fault) : illegalCommand s = raiseFault .eIllCmd s := by
  cases hs : s.st <;> simp_all [illegalCommand]

/-- `LDB`'s own effect: the buffer is full, the byte is stored, or the length is outside the buffer. -/
theorem appendByte_cases (cap : Nat) (b : Byte) (s : State) :
    (s.len = cap ∧ appendByte cap b s = .next (raiseFault .eOvf s)) ∨
    (s.len < cap ∧ appendByte cap b s = .next (lengthenMessage { s with msg := s.msg.write s.len b })) ∨
    (cap < s.len ∧ appendByte cap b s = .fault .msgAddressAbsent) := by
  rcases lt_trichotomy s.len cap with h | h | h
  · exact .inr (.inl ⟨h, by simp [appendByte, h.ne, memWrite_of_lt, h]⟩)
  · exact .inl ⟨h, by simp [appendByte, h]⟩
  · exact .inr (.inr ⟨h, by simp [appendByte, h.ne', State.memWrite, not_lt.mpr h.le]⟩)

/-- The micro-operation the state selects (R57, R58). -/
theorem decodeSelect_selectWord (s : State) :
    decodeSelect s.selectWord =
      if s.st = .busy then if s.k < s.len then .fold else if s.p = 7 then .fin else .next else .hold := by
  have bits : ∀ a b c : Bool, decodeSelect (BitVec.ofBool a ++ BitVec.ofBool b ++ BitVec.ofBool c) =
      if a then if b then .fold else if c then .fin else .next else .hold := by decide
  simp [State.selectWord, bits, State.busy, State.more, State.lastp]

theorem whenSelected_of (op : Instr) (s : State) (effect : State → Result) (h : decodeSelect s.selectWord = op) :
    whenSelected op s effect = effect s := by simp [whenSelected, h]

theorem whenSelected_not (op : Instr) (s : State) (effect : State → Result) (h : decodeSelect s.selectWord ≠ op) :
    whenSelected op s effect = .refused .microOpNotSelected := by simp [whenSelected, h]

end Sys2Proof.Machine
end

