-- ==== Sys2Proof/Laws/Step.lean ====
section
/-! SUPPORT. What one turn of the sequencer, one command and one step can do: the inversion lemmas from which the invariants are
derived. -/

namespace Sys2Proof.Machine

/-- A turn of the sequencer, outcome by outcome (R57, R58). -/
theorem seqStep_cases (s : State) :
    (s.st ≠ .busy ∧ seqStep s = .next s) ∨
    (s.st = .busy ∧ s.k < s.len ∧ s.msg.read s.k = none ∧ seqStep s = .fault .msgCellUnwritten) ∨
    (s.st = .busy ∧ s.k < s.len ∧ ∃ b, s.msg.read s.k = some b ∧
      seqStep s = .next (writeFolded (fold (prevAcc s.h s.p) b (coefAt s.p)) s)) ∨
    (s.st = .busy ∧ s.len ≤ s.k ∧ s.p ≠ 7 ∧ seqStep s = .next (nextPass s)) ∨
    (s.st = .busy ∧ s.len ≤ s.k ∧ s.p = 7 ∧ seqStep s = .next (finishRun s)) := by
  have hsel := decodeSelect_selectWord s
  by_cases hb : s.st = .busy
  · by_cases hk : s.k < s.len
    · simp only [hb, hk, if_true] at hsel
      rcases hr : s.msg.read s.k with _ | b
      · exact .inr (.inl ⟨hb, hk, rfl, by
          simp [seqStep, hsel, exec, execFold, whenSelected_of, foldByte, State.byteOperand, memRead_of_lt, hk, hr]⟩)
      · exact .inr (.inr (.inl ⟨hb, hk, b, rfl, by
          simp [seqStep, hsel, exec, execFold, whenSelected_of, foldByte, State.byteOperand, memRead_of_lt, hk, hr,
            State.prevOperand, State.coefOperand]⟩))
    · by_cases hp : s.p = 7
      · simp only [hb, hk, hp, if_true, if_false] at hsel
        exact .inr (.inr (.inr (.inr ⟨hb, by omega, hp, by simp [seqStep, hsel, exec, execFin, whenSelected_of]⟩)))
      · simp only [hb, hk, hp, if_true, if_false] at hsel
        exact .inr (.inr (.inr (.inl ⟨hb, by omega, hp, by simp [seqStep, hsel, exec, execNext, whenSelected_of]⟩)))
  · simp only [hb, if_false] at hsel
    exact .inl ⟨hb, by simp [seqStep, hsel, exec, execHold, whenSelected_of]⟩

/-- The instruction a command word decodes to is a command. -/
theorem decodeCommand_isCommand (w : CmdWord) (i : Instr) (h : decodeCommand w = .ok i) :
    i = .nop ∨ i = .rst ∨ i = .clrm ∨ (∃ b, i = .ldb b) ∨ i = .go := by
  unfold decodeCommand at h
  split at h
  · cases h; simp
  · split at h
    · rename_i hc
      split at h
      · cases h
        unfold commandOfOp at hc
        split at hc
        · cases hc; simp
        · split at hc
          · cases hc; simp
          · split at hc
            · cases hc; simp
            · split at hc
              · cases hc; simp
              · cases hc
      · cases h
    · cases h

/-- One command transaction that gives a next state, row by row of the table of R77. -/
theorem commandStep_cases (w : CmdWord) (s t : State) (h : commandStep w s = .next t) :
    (t = s ∧ (s.st = .fault ∨ decodeCommand w = .ok .nop)) ∨
    (decodeCommand w = .ok .rst ∧ t = resetRegisters s) ∨
    (s.st ≠ .fault ∧ (∃ e, decodeCommand w = .error e) ∧ t = raiseFault .eIllCmd s) ∨
    (s.st = .busy ∧ (decodeCommand w = .ok .clrm ∨ (∃ b, decodeCommand w = .ok (.ldb b)) ∨ decodeCommand w = .ok .go) ∧
      t = raiseFault .eBusy s) ∨
    ((s.st = .idle ∨ s.st = .done) ∧
      ((decodeCommand w = .ok .clrm ∧ t = clearMessage s) ∨
       (∃ b, decodeCommand w = .ok (.ldb b) ∧
        ((s.len = Config.MSG_CAP ∧ t = raiseFault .eOvf s) ∨
         (s.len < Config.MSG_CAP ∧ t = lengthenMessage { s with msg := s.msg.write s.len b }))) ∨
       (decodeCommand w = .ok .go ∧ t = startRun s))) := by
  rcases hd : decodeCommand w with e | i
  · simp only [commandStep, hd, Host.Outcome.next.injEq] at h
    by_cases hf : s.st = .fault
    · exact .inl ⟨by rw [← h, illegalCommand_fault s hf], .inl hf⟩
    · exact .inr (.inr (.inl ⟨hf, ⟨e, rfl⟩, by rw [← h, illegalCommand_raises s hf]⟩))
  · simp only [commandStep, hd] at h
    have gate : ∀ effect, whenHostOwns s effect = .next t →
        (s.st = .fault ∧ t = s) ∨ (s.st = .busy ∧ t = raiseFault .eBusy s) ∨
        ((s.st = .idle ∨ s.st = .done) ∧ effect s = .next t) := by
      intro effect hg
      cases hs : s.st <;> simp_all [whenHostOwns]
    rcases decodeCommand_isCommand w i hd with rfl | rfl | rfl | ⟨b, rfl⟩ | rfl
    · cases h; exact .inl ⟨rfl, .inr rfl⟩
    · cases h; exact .inr (.inl ⟨rfl, rfl⟩)
    · rcases gate (fun s => .next (clearMessage s)) h with ⟨hs, rfl⟩ | ⟨hs, rfl⟩ | ⟨hs, he⟩
      · exact .inl ⟨rfl, .inl hs⟩
      · exact .inr (.inr (.inr (.inl ⟨hs, .inl rfl, rfl⟩)))
      · cases he; exact .inr (.inr (.inr (.inr ⟨hs, .inl ⟨rfl, rfl⟩⟩)))
    · rcases gate (appendByte Config.MSG_CAP b) h with ⟨hs, rfl⟩ | ⟨hs, rfl⟩ | ⟨hs, he⟩
      · exact .inl ⟨rfl, .inl hs⟩
      · exact .inr (.inr (.inr (.inl ⟨hs, .inr (.inl ⟨b, rfl⟩), rfl⟩)))
      · refine .inr (.inr (.inr (.inr ⟨hs, .inr (.inl ⟨b, rfl, ?_⟩)⟩)))
        rcases appendByte_cases Config.MSG_CAP b s with ⟨hl, ha⟩ | ⟨hl, ha⟩ | ⟨hl, ha⟩
        · rw [ha] at he; cases he; exact .inl ⟨hl, rfl⟩
        · rw [ha] at he; cases he; exact .inr ⟨hl, rfl⟩
        · rw [ha] at he; cases he
    · rcases gate (fun s => .next (startRun s)) h with ⟨hs, rfl⟩ | ⟨hs, rfl⟩ | ⟨hs, he⟩
      · exact .inl ⟨rfl, .inl hs⟩
      · exact .inr (.inr (.inr (.inl ⟨hs, .inr (.inr rfl), rfl⟩)))
      · cases he; exact .inr (.inr (.inr (.inr ⟨hs, .inr (.inr ⟨rfl, rfl⟩)⟩)))

/-- One step, by the head of the schedule (R9). -/
theorem step_cases (s : State) :
    (s.sched = [] ∧ step s = seqStep s) ∨
    (∃ rest, s.sched = .seq :: rest ∧ step s = seqStep { s with sched := rest }) ∨
    (∃ rest, s.sched = .wait :: rest ∧ s.st = .busy ∧ step s = seqStep s) ∨
    (∃ rest, s.sched = .wait :: rest ∧ s.st ≠ .busy ∧ step s = .next { s with sched := rest }) ∨
    (∃ pins rest, s.sched = .host pins :: rest ∧ pins.rst = true ∧
      step s = .next (resetRegisters { s with sched := rest })) ∨
    (∃ pins rest, s.sched = .host pins :: rest ∧ pins.rst = false ∧ pins.cmdValid = false ∧
      step s = .next { s with sched := rest }) ∨
    (∃ w rest, s.sched = .host (commandPins w) :: rest ∧ step s = commandStep w { s with sched := rest }) := by
  rcases hs : s.sched with _ | ⟨e, rest⟩
  · exact .inl ⟨rfl, by simp [step, hs]⟩
  · cases e with
    | seq => exact .inr (.inl ⟨rest, rfl, by simp [step, hs]⟩)
    | wait =>
      by_cases hb : s.st = .busy
      · exact .inr (.inr (.inl ⟨rest, rfl, hb, by simp [step, hs, hb]⟩))
      · exact .inr (.inr (.inr (.inl ⟨rest, rfl, hb, by simp [step, hs, hb]⟩)))
    | host pins =>
      rcases hr : pins.rst with _ | _
      · rcases hv : pins.cmdValid with _ | _
        · exact .inr (.inr (.inr (.inr (.inr (.inl ⟨pins, rest, rfl, hr, hv, by
            simp [step, hs, hostStep, hr, hv]⟩)))))
        · refine .inr (.inr (.inr (.inr (.inr (.inr ⟨pins.cmd, rest, ?_, by
            simp [step, hs, hostStep, hr, hv]⟩)))))
          cases pins; simp_all [commandPins]
      · exact .inr (.inr (.inr (.inr (.inl ⟨pins, rest, rfl, hr, by simp [step, hs, hostStep, hr]⟩))))

end Sys2Proof.Machine
end

