-- ==== Sys2Proof/Laws/Executions.lean ====
section
/-! SUPPORT. The moves of the agents keep the schedule and do not read it, and a move listed first is the machine's next step:
what ties the executions of Executions.lean to the step. -/

namespace Sys2Proof.Machine

/-- A turn of the sequencer keeps the schedule and does not read it. -/
theorem seqStep_withSched (s t : State) (r : List Event) (h : seqStep s = .next t) :
    t.sched = s.sched ∧ seqStep { s with sched := r } = .next { t with sched := r } := by
  have hsel : decodeSelect (State.selectWord { s with sched := r }) = decodeSelect s.selectWord := rfl
  rcases seqStep_cases s with ⟨hb, e⟩ | ⟨_, _, _, e⟩ | ⟨hb, hk, b, hr, e⟩ | ⟨hb, hk, hp, e⟩ | ⟨hb, hk, hp, e⟩ <;>
    rw [e] at h <;> cases h <;> refine ⟨rfl, ?_⟩ <;> rw [seqStep, hsel, decodeSelect_selectWord]
  · rw [if_neg hb, exec, execHold, whenSelected_of _ _ _ (by rw [hsel, decodeSelect_selectWord, if_neg hb])]
  · rw [if_pos hb, if_pos hk, exec, execFold,
      whenSelected_of _ _ _ (by rw [hsel, decodeSelect_selectWord, if_pos hb, if_pos hk])]
    simp [foldByte, State.byteOperand, State.memRead, hk, hr, State.prevOperand, State.coefOperand, writeFolded]
  · rw [if_pos hb, if_neg (by omega), if_neg hp, exec, execNext,
      whenSelected_of _ _ _ (by rw [hsel, decodeSelect_selectWord, if_pos hb, if_neg (by omega), if_neg hp])]
    rfl
  · rw [if_pos hb, if_neg (by omega), if_pos hp, exec, execFin,
      whenSelected_of _ _ _ (by rw [hsel, decodeSelect_selectWord, if_pos hb, if_neg (by omega), if_pos hp])]
    rfl

/-- The gate of the message commands keeps the schedule and does not read it, if the gated effect does so. -/
theorem whenHostOwns_withSched (s t : State) (r : List Event) (effect : State → Result)
    (he : effect s = .next t → t.sched = s.sched ∧ effect { s with sched := r } = .next { t with sched := r })
    (h : whenHostOwns s effect = .next t) :
    t.sched = s.sched ∧ whenHostOwns { s with sched := r } effect = .next { t with sched := r } := by
  cases hs : s.st with
  | fault => simp only [whenHostOwns, hs] at h ⊢; cases h; exact ⟨rfl, by rw [hs]⟩
  | busy => simp only [whenHostOwns, hs] at h ⊢; cases h; exact ⟨rfl, rfl⟩
  | idle => simp only [whenHostOwns, hs] at h ⊢; have := he h; rwa [hs] at this
  | done => simp only [whenHostOwns, hs] at h ⊢; have := he h; rwa [hs] at this

theorem appendByte_withSched (cap : Nat) (b : Byte) (s t : State) (r : List Event) (h : appendByte cap b s = .next t) :
    t.sched = s.sched ∧ appendByte cap b { s with sched := r } = .next { t with sched := r } := by
  rcases appendByte_cases cap b s with ⟨hl, e⟩ | ⟨hl, e⟩ | ⟨hl, e⟩ <;> rw [e] at h <;> cases h <;> refine ⟨rfl, ?_⟩
  · simp [appendByte, hl, raiseFault]
  · simp [appendByte, State.memWrite, hl, hl.ne, lengthenMessage]

/-- A command keeps the schedule and does not read it. -/
theorem commandStep_withSched (w : CmdWord) (s t : State) (r : List Event) (h : commandStep w s = .next t) :
    t.sched = s.sched ∧ commandStep w { s with sched := r } = .next { t with sched := r } := by
  unfold commandStep at h ⊢
  rcases hd : decodeCommand w with e | i <;> simp only [hd] at h ⊢
  · cases h; cases hs : s.st <;> simp [illegalCommand, hs, raiseFault]
  · rcases decodeCommand_isCommand w i hd with rfl | rfl | rfl | ⟨b, rfl⟩ | rfl
    · cases h; exact ⟨rfl, rfl⟩
    · cases h; exact ⟨rfl, rfl⟩
    · exact whenHostOwns_withSched s t r (fun s => .next (clearMessage s)) (fun he => by cases he; exact ⟨rfl, rfl⟩) h
    · exact whenHostOwns_withSched s t r _ (appendByte_withSched Config.MSG_CAP b s t r) h
    · exact whenHostOwns_withSched s t r (fun s => .next (startRun s)) (fun he => by cases he; exact ⟨rfl, rfl⟩) h

/-- A move keeps the schedule and does not read it. -/
theorem Move.act_withSched (m : Move) (s t : State) (r : List Event) (h : m.act s = .next t) :
    t.sched = s.sched ∧ m.act { s with sched := r } = .next { t with sched := r } := by
  cases m with
  | seq => exact seqStep_withSched s t r h
  | host pins =>
    simp only [Move.act, hostStep] at h ⊢
    split at h
    · cases h; simp_all [resetRegisters]
    · split at h
      · simp_all [commandStep_withSched pins.cmd s t r]
      · cases h; simp_all

/-- A transition keeps the schedule and does not read it. -/
theorem Transition_withSched (m : Option Move) (s t : State) (r : List Event) (h : Transition m s t) :
    t.sched = s.sched ∧ Transition m { s with sched := r } { t with sched := r } := by
  cases m with
  | none => cases h; exact ⟨rfl, rfl⟩
  | some m =>
    obtain ⟨he, ha⟩ := h
    have := m.act_withSched s t r ha
    refine ⟨this.1, ?_, this.2⟩
    cases m
    · rfl
    · exact he

/-- The step of a machine whose schedule lists a move first is that move. -/
theorem step_move (m : Move) (s : State) (rest : List Event) (h : s.sched = m.event :: rest) :
    step s = m.act { s with sched := rest } := by
  cases m <;> simp only [step, h, Move.event, Move.act]

end Sys2Proof.Machine
end

