-- ==== Sys2Proof/Laws/PerInstr.lean ====
section
/-! SUPPORT. A family of statements made per instruction: the encoder gives each instruction a word of its own row of
opcode_table.json. -/

namespace Sys2Proof.Laws

/-- The word of `i` is one of the words its row's match and mask admit (R41, R44). -/
def EncodesItsRow.Statement (i : Instr) : Prop := (opRow i).admits (encode i) = true

theorem EncodesItsRow.nop : EncodesItsRow.Statement .nop := rfl
theorem EncodesItsRow.rst : EncodesItsRow.Statement .rst := rfl
theorem EncodesItsRow.clrm : EncodesItsRow.Statement .clrm := rfl
theorem EncodesItsRow.ldb (b : Byte) : EncodesItsRow.Statement (.ldb b) := by
  revert b; unfold EncodesItsRow.Statement; decide
theorem EncodesItsRow.go : EncodesItsRow.Statement .go := rfl
theorem EncodesItsRow.fold : EncodesItsRow.Statement .fold := rfl
theorem EncodesItsRow.next : EncodesItsRow.Statement .next := rfl
theorem EncodesItsRow.fin : EncodesItsRow.Statement .fin := rfl
theorem EncodesItsRow.hold : EncodesItsRow.Statement .hold := rfl

end Sys2Proof.Laws
end

