-- ==== Sys2Proof/Tests/Slice0.lean ====
section
/-! SUPPORT. Tests whose expected results stand in spec/95_test_vectors.md or are written out from a rule, and for every
statement with hypotheses a witness that meets them. -/

namespace Sys2Proof.Machine.Tests

/-! ### Helpers: the start states of V6 -/

/-- The next state, if there is one. -/
def nextOf : Result → Option State
  | .next s => some s
  | .fault _ => none
  | .refused _ => none

/-- V6 `I`: after reset, `ldb 65`. -/
def sI : State := { State.reset with len := 1, msg := [(0, 65#8)] }

/-- V6 `B`: `I` after `go` and one `FOLD`. -/
def sB : State :=
  { sI with h := #v[130#8, 0#8, 0#8, 0#8, 0#8, 0#8, 0#8, 0#8], k := 1, st := .busy }

/-- V6 `D`: after the run. -/
def sD : State :=
  { sI with h := #v[130#8, 75#8, 190#8, 0#8, 205#8, 195#8, 85#8, 45#8], p := 7, k := 1, st := .done }

/-- V6 `F`: `B` after a faulting `go`. -/
def sF : State := { sB with st := .fault, ecause := .eBusy }

/-- `I` right after `go`. -/
def sG : State := { sI with st := .busy }

/-- The last state of a run over `[65]`, before `FIN`. -/
def sE : State := { sD with st := .busy }

/-- The state with the given moves to come. -/
def withMoves (s : State) (es : List Event) : State := { s with sched := es }

/-- One command transaction. -/
def tx (w : CmdWord) : Event := .host (commandPins w)

/-! ### Well-formedness: the ill-formed terms are refused -/

theorem test_microop_is_no_command : Instr.wellFormedIn .cmd .fold = false := by decide
theorem test_command_is_no_microop : Instr.wellFormedIn .seq (.ldb 65#8) = false := by decide
theorem test_asm_byte_256_refused : (AsmLine.ldb 256).wellFormed = false := by decide
theorem test_asm_word_2048_refused : (AsmLine.word 2048).wellFormed = false := by decide
theorem test_asm_msg_256_refused : (AsmLine.msg [1, 256]).wellFormed = false := by decide
theorem test_asm_digest_256_refused : (AsmLine.digest [256]).wellFormed = false := by decide

/-! ### Decoding words written out from R41, R44 (V5, V7) -/

theorem test_decode_commands :
    decodeCommand 0b00000000000#11 = .ok .nop ∧ decodeCommand 0b00100000000#11 = .ok .rst ∧
    decodeCommand 0b01000000000#11 = .ok .clrm ∧ decodeCommand 0b01101000001#11 = .ok (.ldb 65#8) ∧
    decodeCommand 0b10000000000#11 = .ok .go := by decide

theorem test_decode_select_words :
    decodeSelect 0b110#3 = .fold ∧ decodeSelect 0b111#3 = .fold ∧ decodeSelect 0b100#3 = .next ∧
    decodeSelect 0b101#3 = .fin ∧ decodeSelect 0b001#3 = .hold ∧ decodeSelect 0b010#3 = .hold := by decide

theorem test_decode_illegal_words :
    decodeCommand 0x001#11 = .error (.immediateNotZero 0#3 1#8) ∧
    decodeCommand 0x1ff#11 = .error (.immediateNotZero 1#3 255#8) ∧
    decodeCommand 0x280#11 = .error (.immediateNotZero 2#3 128#8) ∧
    decodeCommand 0x401#11 = .error (.immediateNotZero 4#3 1#8) ∧
    decodeCommand 0x500#11 = .error (.reservedOpcode 5#3) ∧
    decodeCommand 0x641#11 = .error (.reservedOpcode 6#3) ∧
    decodeCommand 0x7ff#11 = .error (.reservedOpcode 7#3) := by decide

theorem test_select_word_of_states :
    sB.selectWord = 0b100#3 ∧ sE.selectWord = 0b101#3 ∧ sG.selectWord = 0b110#3 ∧ sD.selectWord = 0b001#3 ∧
    sI.selectWord = 0b010#3 := by decide

/-! ### Each instruction as the first after reset, and from the states of V6 -/

theorem test_first_nop : nextOf (step (State.reset.withFetchWord 16 0x000)) = some State.reset := by decide
theorem test_first_rst : nextOf (step (State.reset.withFetchWord 16 0x100)) = some State.reset := by decide
theorem test_rst_from_fault : (nextOf (exec .rst sF)).map (fun t => (t.st, t.ecause, t.len)) = some (.idle, .eNone, 0) := by
  decide
theorem test_first_clrm : nextOf (step (State.reset.withFetchWord 16 0x200)) = some State.reset := by decide
theorem test_clrm_from_done :
    (nextOf (exec .clrm sD)).map (fun t => (t.st, t.len, t.p, t.k)) = some (.idle, 0, 7, 1) := by decide
theorem test_first_ldb : nextOf (step (State.reset.withFetchWord 16 0x341)) = some sI := by decide
theorem test_ldb_overflow_of_two_cells :
    (nextOf (appendByte 2 3#8 { sI with len := 2, msg := [(0, 1#8), (1, 2#8)] })).map (fun t => (t.st, t.ecause, t.len, t.msg)) =
      some (.fault, .eOvf, 2, [(0, 1#8), (1, 2#8)]) := by decide
theorem test_first_go :
    (nextOf (step (State.reset.withFetchWord 16 0x400))).map (fun t => (t.st, t.p, t.k)) = some (.busy, 0, 0) := by decide
theorem test_go_in_busy_faults : nextOf (exec .go sB) = some sF := by decide
theorem test_first_fold :
    (nextOf (step (State.reset.withFetchWord 8 0b110))).map (fun t => (t.k, t.st)) = some (1, .busy) := by decide
theorem test_fold_second_pass :
    (nextOf (exec .fold { sB with p := 1, k := 0 })).map (fun t => (t.h.toList, t.k)) =
      some ([130#8, 75#8, 0#8, 0#8, 0#8, 0#8, 0#8, 0#8], 1) := by decide
theorem test_first_next :
    (nextOf (step (State.reset.withFetchWord 8 0b100))).map (fun t => (t.p, t.k, t.st)) = some (1, 0, .busy) := by decide
theorem test_next_after_first_pass : (nextOf (exec .next sB)).map (fun t => (t.p, t.k)) = some (1, 0) := by decide
theorem test_first_fin :
    (nextOf (step (State.reset.withFetchWord 8 0b101))).map (fun t => (t.st, t.p)) = some (.done, 7) := by decide
theorem test_fin_ends_the_run : nextOf (exec .fin sE) = some sD := by decide
theorem test_first_hold : nextOf (step (State.reset.withFetchWord 8 0b000)) = some State.reset := by decide
theorem test_hold_in_done : nextOf (exec .hold sD) = some sD := by decide
theorem test_illegal_word_in_idle :
    (nextOf (step (withMoves sI [tx 0x500#11]))).map (fun t => (t.st, t.ecause)) = some (.fault, .eIllCmd) := by decide

/-! ### The digest and the encoder (V1, V2, V4) -/

theorem test_fold_vectors :
    fold 0#8 65#8 2#5 = 130#8 ∧ fold 130#8 65#8 3#5 = 75#8 ∧ fold 254#8 255#8 19#5 = 236#8 ∧
    fold 127#8 1#8 2#5 = 1#8 ∧ fold 190#8 65#8 7#5 = 0#8 ∧ fold 254#8 254#8 19#5 = 217#8 := by decide
theorem test_digest_of_A : (digestAcc [65#8]).toList = [130#8, 75#8, 190#8, 0#8, 205#8, 195#8, 85#8, 45#8] := by decide
theorem test_digest_of_AB : (digestAcc [65#8, 66#8]).toList = [132#8, 84#8, 240#8, 102#8, 63#8, 147#8, 51#8, 183#8] := by
  decide
theorem test_hex_of_A :
    digestHex [65#8] = [0x38#8, 0x32#8, 0x34#8, 0x62#8, 0x62#8, 0x65#8, 0x30#8, 0x30#8, 0x63#8, 0x64#8, 0x63#8, 0x33#8,
      0x35#8, 0x35#8, 0x32#8, 0x64#8] := by decide
theorem test_hexEnc_vectors :
    hexEnc [16] = [0x31#8, 0x30#8] ∧ hexEnc [256] = [0x30#8, 0x30#8] ∧ hexEnc [511] = [0x66#8, 0x66#8] ∧
    hexEnc [171, 205] = [0x61#8, 0x62#8, 0x63#8, 0x64#8] := by decide
theorem test_ports_of_A :
    digO 0 sD = 0x2d55c3cd00be4b82#64 ∧ hexO 0 sD = 0x64323535336364633030656262343238#128 := by decide

/-! ### The assembler text (R48, R49) -/

theorem test_asm_text :
    assembleText [['L', 'd', 'b', ' ', '\'', 'A', '\'', ' ', ';', 'x'], ['g', 'o'], ['w', 'a', 'i', 't']] =
      .ok [.transaction 0x341#11, .transaction 0x400#11, .wait] := by decide
theorem test_asm_text_numbers :
    assembleText [['.', 'w', 'o', 'r', 'd', ' ', '0', 'x', '4', '0', '1'], ['m', 's', 'g', ' ', '1', ',', ' ', '2', '5', '5']] =
      .ok [.transaction 0x401#11, .transaction 0x200#11, .transaction 0x301#11, .transaction 0x3ff#11] := by decide
theorem test_asm_text_errors :
    parseAsmLine ['j', 'm', 'p'] = .error .unknownMnemonic ∧ parseAsmLine ['l', 'd', 'b'] = .error .wrongOperandCount ∧
    parseAsmLine ['l', 'd', 'b', ' ', 'x'] = .error .badNumber := by decide

/-! ### Witnesses -/

theorem cap_pos : 1 ≤ Config.MSG_CAP := by simp [Config.MSG_CAP]

theorem holds_I : HoldsMessage sI [65#8] :=
  ⟨rfl, by intro k hk; obtain rfl : k = 0 := by simpa using hk
           rfl⟩

theorem bound_I (a : Nat) (ha : Config.MSG_CAP ≤ a) : sI.msg.read a = none := by
  have := cap_pos
  have : a ≠ 0 := by omega
  simp [sI, Memory.read, this, unlistedCell]

theorem inv_I : Inv sI :=
  ⟨by decide, cap_pos, by simp [sI, State.reset], by decide, by simp [sI, State.reset], by decide, bound_I,
    [65#8], holds_I, by simp [sI, State.reset], by simp [sI, State.reset]⟩

theorem inv_G : Inv sG :=
  ⟨by decide, cap_pos, by decide, by decide, by decide, by decide, bound_I, [65#8], holds_I, by decide, fun _ =>
    ⟨by decide, by decide, by intro k _ h; simp [sG, sI, State.reset] at h, by decide⟩⟩

theorem folded_B : sB.h[(0 : Fin 8)] = fold (prevAcc sB.h 0) 65#8 (coefAt 0) := by decide

theorem folded_E : sE.h[(7 : Fin 8)] = fold (prevAcc sE.h 7) 65#8 (coefAt 7) := by decide

theorem inv_B : Inv sB :=
  ⟨by decide, cap_pos, by decide, by decide, by decide, by decide, bound_I, [65#8], holds_I, by decide, fun _ =>
    ⟨by decide, by decide, by intro k hk _; obtain rfl : k = 0 := by simpa using hk
                              exact folded_B, by decide⟩⟩

theorem inv_E : Inv sE :=
  ⟨by decide, cap_pos, by decide, by decide, by decide, by decide, bound_I, [65#8], holds_I, by decide, fun _ =>
    ⟨by decide, by decide, by intro k hk _; obtain rfl : k = 0 := by simpa using hk
                              exact folded_E, by decide⟩⟩

theorem inv_D : Inv sD :=
  ⟨by decide, cap_pos, by decide, by decide, by decide, by decide, bound_I, [65#8], holds_I, by decide, nofun⟩

theorem inv_F : Inv sF :=
  ⟨by decide, cap_pos, by decide, by decide, by decide, by decide, bound_I, [65#8], holds_I, by decide, nofun⟩

/-- A state in `IDLE` whose buffer is full. -/
def sFull : State := { State.reset with len := Config.MSG_CAP }

/-- A state in `BUSY` whose buffer is full. -/
def sFullBusy : State := { sFull with st := .busy }

theorem witness_IllegalWordsRaiseIllCmd :
    decodeCommand 0x500#11 = .error (.reservedOpcode 5#3) ∧ decodeCommand 0x401#11 = .error (.immediateNotZero 4#3 1#8) ∧
    (withMoves sB [tx 0x500#11]).sched = .host (commandPins 0x500#11) :: [] ∧ (withMoves sB [tx 0x500#11]).st ≠ .fault ∧
    (withMoves sF [tx 0x401#11]).st = .fault := by decide

theorem witness_StepRunsTheDecodedCommand :
    (withMoves sI [tx 0x341#11]).sched = .host ⟨false, true, 0x341#11⟩ :: [] ∧ decodeCommand 0x341#11 = .ok (.ldb 65#8) := by
  decide

theorem witness_SequencerRunsTheSelectedMicroOperation :
    (withMoves sB [.seq]).st = .busy ∧ (withMoves sB [.seq]).sched = .seq :: [] ∧ (withMoves sE [.wait]).st = .busy ∧
    (withMoves sE [.wait]).sched = .wait :: [] ∧ sG.st = .busy ∧ sG.sched = [] := by decide

theorem witness_NothingMovesOutsideBusy :
    (withMoves sD [.seq]).st ≠ .busy ∧ (withMoves sD [.seq]).sched = .seq :: [] ∧ (withMoves sF [.wait]).st ≠ .busy ∧
    (withMoves sF [.wait]).sched = .wait :: [] ∧ sI.st ≠ .busy ∧ sI.sched = [] := by decide

theorem witness_ResetEventOverridesEverything :
    (HostPins.mk true true 0x500#11).rst = true ∧
    (withMoves sF [.host ⟨true, true, 0x500#11⟩]).sched = .host ⟨true, true, 0x500#11⟩ :: [] := by decide

theorem witness_PinsWithoutValidAreIgnored :
    (HostPins.mk false false 0x400#11).rst = false ∧ (HostPins.mk false false 0x400#11).cmdValid = false ∧
    (withMoves sI [.host ⟨false, false, 0x400#11⟩]).sched = .host ⟨false, false, 0x400#11⟩ :: [] := by decide

theorem witness_RstRestoresResetValues :
    sF.st = .fault ∧ decodeCommand 0x500#11 ≠ .ok .rst ∧ decodeCommand 0x400#11 ≠ .ok .rst ∧ resetPins.rst = true := by decide

theorem witness_ClrmEmptiesTheMessage : sI.st = .idle ∧ sD.st = .done ∧ sB.st = .busy ∧ sF.st = .fault := by decide

theorem witness_LdbAppendsTheByte :
    (State.reset.st = .idle ∧ State.reset.len < Config.MSG_CAP) ∧ (sFull.st = .idle ∧ sFull.len = Config.MSG_CAP) ∧
    sB.st = .busy ∧ sF.st = .fault :=
  ⟨⟨rfl, cap_pos⟩, ⟨rfl, rfl⟩, rfl, rfl⟩

theorem witness_GoStartsARun : sI.st = .idle ∧ sD.st = .done ∧ sB.st = .busy ∧ sF.st = .fault := by decide

/-- A byte to fold, and the sums 0 and 255 of the corner case. -/
theorem witness_FoldWritesAccumulatorP :
    (sG.st = .busy ∧ sG.k < sG.len ∧ sG.msg.read sG.k = some 65#8) ∧
    255 ∣ (0#8).toNat + (0#8).toNat ∧ 255 ∣ (190#8).toNat + (65#8).toNat := by decide

theorem witness_NextStartsTheNextPass : sB.st = .busy ∧ sB.k = sB.len ∧ sB.p.val < 7 := by decide

theorem witness_FinCompletesTheRun :
    (sE.st = .busy ∧ sE.k = sE.len ∧ sE.p = 7) ∧ Inv sE ∧ HoldsMessage sE [65#8] :=
  ⟨by decide, inv_E, holds_I⟩

theorem witness_HoldLeavesTheState : sD.st ≠ .busy := by decide

/-- Each stop of the model is met: a micro-operation not selected, a cell never written, a length above the buffer. -/
theorem witness_ModelStopsOnlyThere :
    exec .fold State.reset = .refused .microOpNotSelected ∧
    exec .fold { sG with msg := [] } = .fault .msgCellUnwritten ∧
    exec (.ldb 1#8) { sI with len := Config.MSG_CAP + 1 } = .fault .msgAddressAbsent := by
  refine ⟨rfl, rfl, ?_⟩
  rcases appendByte_cases Config.MSG_CAP 1#8 { sI with len := Config.MSG_CAP + 1 } with h | h | h
  · have := h.1; simp at this
  · have := h.1; simp at this
  · exact h.2

theorem witness_FaultChecksKeepTheirOrder :
    ((withMoves sB [tx 0x500#11]).st = .busy ∧ decodeCommand 0x500#11 ≠ .ok .nop ∧ decodeCommand 0x500#11 ≠ .ok .rst ∧
      (withMoves sB [tx 0x500#11]).sched = .host (commandPins 0x500#11) :: []) ∧
    ((withMoves sFullBusy [tx 0x342#11]).st = .busy ∧ (withMoves sFullBusy [tx 0x342#11]).len = Config.MSG_CAP ∧
      decodeCommand 0x342#11 = .ok (.ldb 66#8)) ∧
    ((withMoves sF [tx 0x500#11]).st = .fault ∧ decodeCommand 0x500#11 ≠ .ok .rst) :=
  ⟨by decide, ⟨rfl, rfl, by decide⟩, by decide⟩

theorem witness_FaultEntryWritesStAndEcauseOnly :
    step (withMoves sB [tx 0x400#11]) = .next sF ∧ (withMoves sB [tx 0x400#11]).st ≠ .fault ∧ sF.st = .fault :=
  ⟨rfl, by decide, by decide⟩

/-- Each of the three causes is met. -/
theorem witness_FaultsAreTheThreeListed :
    step (withMoves sB [tx 0x400#11]) = .next sF ∧
    (∃ t, step (withMoves sI [tx 0x500#11]) = .next t ∧ t.st = .fault ∧ t.ecause = .eIllCmd) ∧
    (∃ t, step (withMoves sFull [tx 0x342#11]) = .next t ∧ t.st = .fault ∧ t.ecause = .eOvf) :=
  ⟨rfl, ⟨_, rfl, rfl, rfl⟩, ⟨raiseFault .eOvf sFull, by
    have hd : decodeCommand 0x342#11 = .ok (.ldb 66#8) := by decide
    simp [step, withMoves, tx, hostStep, commandPins, commandStep, hd, exec, execLdb, whenHostOwns, sFull, State.reset,
      appendByte], rfl, rfl⟩⟩

theorem witness_OnlyResetLeavesFault :
    step (withMoves sF [tx 0x100#11]) = .next (resetRegisters sF) ∧ (withMoves sF [tx 0x100#11]).st = .fault ∧
    step (withMoves sF [tx 0x400#11]) = .next sF ∧ (withMoves sF [tx 0x400#11]).st = .fault :=
  ⟨rfl, by decide, rfl, by decide⟩

theorem witness_FaultIsKeptOverAnySchedule :
    (withMoves sF [tx 0x400#11, .seq]).st = .fault ∧
    ∀ pins, Event.host pins ∈ (withMoves sF [tx 0x400#11, .seq]).sched →
      pins.rst = false ∧ (pins.cmdValid = true → pins.cmd ≠ 0x100#11) := by
  refine ⟨rfl, fun pins h => ?_⟩
  simp only [withMoves, tx, List.mem_cons, Event.host.injEq, reduceCtorEq, List.not_mem_nil, or_false] at h
  subst h
  exact ⟨rfl, fun _ => by decide⟩

/-- The last state of a run over the empty message, before `FIN`. -/
def sEmptyEnd : State := { State.reset with p := 7, st := .busy }

theorem witness_CommandBesideFinSeesBothOrders :
    decodeCommand 0x400#11 = .ok .go ∧ Instr.go ≠ .nop ∧ Instr.go ≠ .rst ∧ sEmptyEnd.st = .busy ∧
    sEmptyEnd.k = sEmptyEnd.len ∧ sEmptyEnd.p = 7 ∧ sEmptyEnd.len < Config.MSG_CAP ∧
    (withMoves sEmptyEnd [tx 0x400#11, .seq]).sched = [.host (commandPins 0x400#11), .seq] ∧
    (withMoves sEmptyEnd [.seq, tx 0x400#11]).sched = [.seq, .host (commandPins 0x400#11)] :=
  ⟨by decide, by decide, by decide, rfl, rfl, rfl, cap_pos, rfl, rfl⟩

/-- `StepKeepsTheInvariants`: steps of each kind from states that meet the invariants. -/
theorem witness_StepKeepsTheInvariants :
    (Inv sE ∧ step sE = .next sD) ∧ (Inv sB ∧ ∃ t, step sB = .next t) ∧ (Inv sG ∧ ∃ t, step sG = .next t) :=
  ⟨⟨inv_E, rfl⟩, ⟨inv_B, _, rfl⟩, ⟨inv_G, _, rfl⟩⟩

theorem witness_StepNeverStopsUnderTheInvariants : Inv sI ∧ Inv sB ∧ Inv sD ∧ Inv sF := ⟨inv_I, inv_B, inv_D, inv_F⟩

theorem witness_MessageIsImmutableDuringARun :
    (step (withMoves sB [tx 0x400#11]) = .next sF ∧ (withMoves sB [tx 0x400#11]).st = .busy ∧ sF.st = .fault) ∧
    (step (withMoves sB [tx 0x100#11]) = .next (resetRegisters sB) ∧ (resetRegisters sB).st = .idle) :=
  ⟨⟨rfl, by decide, by decide⟩, rfl, by decide⟩

theorem witness_OnlyGoStartsAndOnlyFinCompletes :
    (step (withMoves sI [tx 0x400#11]) = .next sG ∧ (withMoves sI [tx 0x400#11]).st ≠ .busy ∧ sG.st = .busy) ∧
    (step sE = .next sD ∧ sE.st ≠ .done ∧ sD.st = .done) :=
  ⟨⟨rfl, by decide, by decide⟩, rfl, by decide, by decide⟩

/-- A `FOLD`, a step that leaves the accumulators, and `RST` and `GO` that zero them. -/
theorem witness_AccumulatorsChangeOnlyByFoldOrToZero :
    step sG = .next sB ∧ step sE = .next sD ∧ step (withMoves sF [tx 0x100#11]) = .next (resetRegisters sF) ∧
    step (withMoves sD [tx 0x400#11]) = .next (startRun sD) := ⟨rfl, rfl, rfl, rfl⟩

theorem witness_OnlyLdbWritesTheMessageBuffer : step (withMoves State.reset [tx 0x341#11]) = .next sI := rfl

theorem witness_CellsAboveLenReachNothing :
    AgreeBelowLen sG { sG with msg := [(0, 65#8), (1, 66#8)] } ∧ step sG = .next sB := by
  refine ⟨⟨rfl, fun a ha => ?_⟩, rfl⟩
  obtain rfl : a = 0 := by simpa [sG, sI] using ha
  rfl

theorem witness_LenPortShowsLen : State.reset.len ≤ Config.MSG_CAP ∧ sFull.len ≤ Config.MSG_CAP :=
  ⟨Nat.zero_le _, le_refl _⟩

theorem witness_ResultPortsInDone : sD.st = .done := by decide

theorem witness_ResultPortsDrawOutsideDone : sB.st ≠ .done ∧ State.reset.st ≠ .done := by decide

theorem witness_ReductionByFoldingIsTheRemainder : 0 ≤ 9671 ∧ 255 ≤ 9671 ∧ 9671 ≤ 9671 := by decide

/-- `EmptyMessageDigestsToZero`, `DigestDependsOnTheLastByteOnly`, `DigestIsTheMultiplierForm`: a message that is not
empty. -/
theorem witness_nonempty_message : ([65#8, 66#8] : List Byte) ≠ [] := by decide

theorem witness_NoAccumulatorReadsFF : Inv sD ∧ 0 < 8 ∧ 7 < 8 := ⟨inv_D, by decide, by decide⟩

theorem witness_RunVariantFallsByOne : (Inv sB ∧ sB.st = .busy) ∧ (Inv sE ∧ sE.st = .busy ∧ runVariant sE = 1) :=
  ⟨⟨inv_B, by decide⟩, inv_E, by decide, by decide⟩

theorem witness_RunTakesEightLenPlusEightSteps :
    HoldsMessage (withMoves sI [tx 0x400#11]) [65#8] ∧ (withMoves sI [tx 0x400#11]).st = .idle ∧
    (withMoves sI [tx 0x400#11]).sched = [.host (commandPins 0x400#11)] :=
  ⟨holds_I, rfl, rfl⟩

/-- A schedule with a `NOP`, idle pins and sixteen turns of the sequencer. -/
def quietMoves : List Event := tx 0x000#11 :: .host ⟨false, false, 0x400#11⟩ :: List.replicate 16 .seq

/-- The run of P1 as an execution: `GO` after reset, seven `NEXT` and `FIN`, and then nobody moves. -/
def emptyRun : Nat → State
  | 0 => State.reset
  | n + 1 => if n < 8 then { State.reset with p := Fin.ofNat 8 n, st := .busy } else { State.reset with p := 7, st := .done }

/-- The moves of `emptyRun`. -/
def emptyRunMoves : Nat → Option Move
  | 0 => some (.host (commandPins 0x400#11))
  | n + 1 => if n < 8 then some .seq else none

theorem emptyRun_isExecution : IsExecution emptyRun emptyRunMoves := by
  have seqs : ∀ n : Fin 8, Transition (emptyRunMoves (n.val + 1)) (emptyRun (n.val + 1)) (emptyRun (n.val + 2)) := by
    intro n
    have : ∀ n : Fin 8, n = 0 ∨ n = 1 ∨ n = 2 ∨ n = 3 ∨ n = 4 ∨ n = 5 ∨ n = 6 ∨ n = 7 := by decide
    rcases this n with rfl | rfl | rfl | rfl | rfl | rfl | rfl | rfl <;> exact ⟨rfl, rfl⟩
  intro n
  rcases n with _ | n
  · exact ⟨rfl, rfl⟩
  · by_cases h : n < 8
    · exact seqs ⟨n, h⟩
    · have h1 : emptyRunMoves (n + 1) = none := if_neg h
      have h2 : emptyRun (n + 1) = emptyRun (n + 2) := (if_neg h).trans (if_neg (by omega)).symm
      simp [h1, Transition, h2]

theorem emptyRun_weaklyFair : WeaklyFair emptyRun emptyRunMoves := by
  intro ⟨N, h⟩
  have h1 := h (N + 9) (by omega)
  simp [emptyRun] at h1

theorem test_emptyRun_takes_eight_steps : seqStepsBetween emptyRunMoves 1 9 = 8 ∧ (emptyRun 9).st = .done := by decide

/-- A finite schedule with turns enough, one with a wait, and a weakly fair execution. -/
theorem witness_QuietRunEndsInTheDigest :
    (HoldsMessage (withMoves sI (tx 0x400#11 :: quietMoves)) [65#8] ∧
      (withMoves sI (tx 0x400#11 :: quietMoves)).st = .idle ∧ (∀ e ∈ quietMoves, e.quiet = true) ∧
      8 * [65#8].length + 8 ≤ seqTurns quietMoves) ∧
    ((∀ e ∈ [Event.seq, .wait], e.quiet = true) ∧ Event.wait ∈ [Event.seq, .wait]) ∧
    (IsExecution emptyRun emptyRunMoves ∧ WeaklyFair emptyRun emptyRunMoves ∧ HoldsMessage (emptyRun 0) [] ∧
      (emptyRun 0).st = .idle ∧ emptyRunMoves 0 = some (.host (commandPins 0x400#11)) ∧
      ∀ n pins, 0 < n → (emptyRun n).st = .busy → emptyRunMoves n = some (.host pins) →
        (Event.host pins).quiet = true) := by
  refine ⟨⟨holds_I, rfl, by decide, by decide⟩, by decide, emptyRun_isExecution, emptyRun_weaklyFair, ⟨rfl, nofun⟩, rfl, rfl, ?_⟩
  intro n pins hn _ hm
  obtain ⟨n, rfl⟩ : ∃ m, n = m + 1 := ⟨n - 1, by omega⟩
  simp only [emptyRunMoves] at hm
  split at hm <;> cases hm

theorem witness_GoInDoneRecomputesTheSameDigest :
    Inv (withMoves sD (tx 0x400#11 :: quietMoves)) ∧ (withMoves sD (tx 0x400#11 :: quietMoves)).st = .done ∧
    (∀ e ∈ quietMoves, e.quiet = true) ∧ 8 * sD.len + 8 ≤ seqTurns quietMoves := by
  obtain ⟨S, hm, hd, _⟩ := inv_D.message
  exact ⟨⟨inv_D.1, inv_D.2, inv_D.3, inv_D.4, inv_D.5, inv_D.6, inv_D.7, S, hm, hd, nofun⟩, rfl, by decide, by decide⟩

theorem witness_ProtocolDeliversTheDigest :
    ((withMoves sD (digestProgram [66#8])).st = .done ∧ [66#8].length ≤ Config.MSG_CAP ∧
      (withMoves sD (digestProgram [66#8])).sched = digestProgram [66#8]) ∧
    ((withMoves sF (tx 0x100#11 :: digestProgram [66#8])).st = .fault ∧
      (withMoves sF (tx 0x100#11 :: digestProgram [66#8])).sched = .host (commandPins 0x100#11) :: digestProgram [66#8]) :=
  ⟨⟨rfl, cap_pos, rfl⟩, rfl, rfl⟩

theorem witness_LoadingDefinesTheMessage :
    State.reset.st = .idle ∧ State.reset.len = 0 ∧ [65#8].length ≤ Config.MSG_CAP ∧
    (List.replicate Config.MSG_CAP 65#8).length = Config.MSG_CAP :=
  ⟨rfl, rfl, cap_pos, by simp⟩

theorem witness_DoneAlwaysShowsTheDigest :
    ∃ t, runSteps 9 { State.reset with sched := [tx 0x400#11] } = .next t ∧ t.st = .done := ⟨_, rfl, rfl⟩

/-- `sE` with a step of `SEQ` left, and `sD` for ever after it. -/
def lastStep : Nat → State
  | 0 => sE
  | _ + 1 => sD

/-- The moves of `lastStep`. -/
def lastStepMoves : Nat → Option Move
  | 0 => some .seq
  | _ + 1 => none

theorem lastStep_isExecution : IsExecution lastStep lastStepMoves
  | 0 => ⟨rfl, rfl⟩
  | _ + 1 => rfl

theorem lastStep_weaklyFair : WeaklyFair lastStep lastStepMoves := fun ⟨N, h⟩ => nomatch h (N + 1) (by omega)

theorem witness_EveryRunEnds :
    (Inv (withMoves sE [tx 0x000#11, .seq]) ∧ (withMoves sE [tx 0x000#11, .seq]).st = .busy ∧
      .wait ∉ (withMoves sE [tx 0x000#11, .seq]).sched ∧
      runVariant (withMoves sE [tx 0x000#11, .seq]) ≤ seqTurns (withMoves sE [tx 0x000#11, .seq]).sched) ∧
    (IsExecution lastStep lastStepMoves ∧ WeaklyFair lastStep lastStepMoves ∧ Inv (lastStep 0) ∧
      (lastStep 0).st = .busy) := by
  obtain ⟨S, hm, hd, hb⟩ := inv_E.message
  have hr := hb rfl
  exact ⟨⟨⟨inv_E.1, inv_E.2, inv_E.3, inv_E.4, inv_E.5, inv_E.6, inv_E.7, S, hm, nofun, fun _ =>
    ⟨hr.settled, hr.unstarted, hr.folded, hr.untouched⟩⟩, by decide, by decide, by decide⟩,
    lastStep_isExecution, lastStep_weaklyFair, inv_E, by decide⟩

/-- A step, an execution from a state that meets the invariants, and a state in which polling starves a run. -/
theorem witness_ExecutionsInterleaveTheAgents :
    step sE = .next sD ∧ IsExecution lastStep lastStepMoves ∧ Inv (lastStep 0) ∧ sB.st = .busy ∧ sD.st ≠ .busy :=
  ⟨rfl, lastStep_isExecution, inv_E, by decide, by decide⟩

theorem witness_AssemblerLinesGiveTheirWords : 65 ≤ 255 ∧ 255 < 256 := by decide

theorem witness_PseudoInstructionsExpand : ∀ b ∈ [65, 255], b ≤ 255 := by decide

end Sys2Proof.Machine.Tests
end

section
/-! SUPPORT. The invariants of R23 over every register update of Ops.lean and so over every transition of an agent; the
executions that follow wished moves; and the statements of 00_scope.md. -/

namespace Sys2Proof.Machine

/-! ### The digest, accumulator by accumulator -/

/-- Passes over other positions leave accumulator `i` as it was. -/
theorem foldl_pass_get_other (S : List Byte) (l : List (Fin 8)) (h : Accs) (i : Fin 8) (hi : i ∉ l) :
    (l.foldl (pass S) h)[i] = h[i] := by
  induction l generalizing h with
  | nil => rfl
  | cons j l ih =>
    obtain ⟨hj, hl⟩ := List.ne_and_not_mem_of_not_mem_cons hi
    rw [List.foldl_cons, ih _ hl]
    exact pass_get_other S h j i.val i.isLt (Fin.val_ne_of_ne hj)

/-- The positions are those before `i`, `i`, and those after it. -/
theorem positions_split (i : Fin 8) :
    positions = positions.take i.val ++ i :: positions.drop (i.val + 1) ∧ ∀ j ∈ positions.drop (i.val + 1), i < j := by
  revert i; decide

/-- A digest, as the passes after position `i` on top of pass `i`. -/
theorem digestAcc_through_pass (S : List Byte) (i : Fin 8) :
    ∃ h, digestAcc S = (positions.drop (i.val + 1)).foldl (pass S) (pass S h i) :=
  ⟨(positions.take i.val).foldl (pass S) zeroAccs,
    (congrArg (List.foldl (pass S) zeroAccs) (positions_split i).1).trans List.foldl_append⟩

/-- Each accumulator of a digest is the fold of the last byte onto the accumulator before it, as both end up (R64). -/
theorem digestAcc_get_append (S : List Byte) (b : Byte) (i : Fin 8) :
    (digestAcc (S ++ [b]))[i] = fold (prevAcc (digestAcc (S ++ [b])) i) b (coefAt i) := by
  obtain ⟨h, hdig⟩ := digestAcc_through_pass (S ++ [b]) i
  have hafter := (positions_split i).2
  have hprev : prevAcc (digestAcc (S ++ [b])) i = prevAcc h i := prevAcc_congr _ _ _ fun j hj => by
    rw [hdig, foldl_pass_get_other _ _ _ _ fun hmem => lt_asymm hj (hafter j hmem)]
    exact pass_get_other _ _ _ _ j.isLt (Fin.val_ne_of_ne hj.ne)
  rw [hprev, hdig, foldl_pass_get_other _ _ _ _ fun hmem => lt_irrefl i (hafter i hmem)]
  exact pass_get_self S b h i

/-- The empty digest is the zero-fill (R52). -/
theorem digestAcc_nil : digestAcc [] = zeroAccs := rfl

/-! ### A run in progress -/

/-- At the end of a pass its accumulator is that of the digest. -/
theorem RunInProgress.current_eq_digestAcc {s : State} {S : List Byte} (hr : RunInProgress s S) (hk : s.k = S.length) :
    s.h[s.p] = (digestAcc S)[s.p] := by
  rcases List.eq_nil_or_concat' S with rfl | ⟨S, b, rfl⟩
  · rw [hr.unstarted hk, digestAcc_nil]
    exact (zeroAccs_get _ s.p.isLt).symm
  · have hprev : prevAcc s.h s.p = prevAcc (digestAcc (S ++ [b])) s.p := prevAcc_congr _ _ _ hr.settled
    rw [digestAcc_get_append, ← hprev, hr.folded S.length (by simp) (by simpa using hk)]
    simp

theorem runInProgress_startRun (s : State) (S : List Byte) : RunInProgress (startRun s) S where
  settled _ hj := absurd hj (Fin.not_lt_zero _)
  unstarted _ := by simp
  folded _ _ hk := nomatch hk
  untouched _ _ := by simp

theorem RunInProgress.writeFolded_inProgress {s : State} {S : List Byte} (hr : RunInProgress s S) (hk : s.k < S.length) :
    RunInProgress (writeFolded (fold (prevAcc s.h s.p) S[s.k] (coefAt s.p)) s) S where
  settled j hj := (foldAt_get_other s.p s.h S[s.k] j j.isLt (Fin.val_ne_of_ne hj.ne)).trans (hr.settled j hj)
  unstarted h := nomatch h
  folded k _ h := by
    obtain rfl : s.k = k := Nat.succ.inj h
    change (foldAt s.p s.h S[s.k])[s.p.val] = fold (prevAcc (foldAt s.p s.h S[s.k]) s.p) S[s.k] (coefAt s.p)
    rw [foldAt_get_self, prevAcc_foldAt]
  untouched j hj := (foldAt_get_other s.p s.h S[s.k] j j.isLt (Fin.val_ne_of_ne hj.ne')).trans (hr.untouched j hj)

theorem RunInProgress.nextPass_inProgress {s : State} {S : List Byte} (hr : RunInProgress s S) (hk : s.k = S.length)
    (hp : s.p ≠ 7) : RunInProgress (nextPass s) S where
  settled j hj := by
    rcases lt_or_eq_of_le (show j ≤ s.p by simp only [nextPass_p] at hj; omega) with hlt | rfl
    · exact hr.settled j hlt
    · exact hr.current_eq_digestAcc hk
  unstarted _ := hr.untouched (s.p + 1) (by omega)
  folded _ _ h := nomatch h
  untouched j hj := hr.untouched j (by simp only [nextPass_p] at hj; omega)

/-- At the end of the last pass the accumulators are the digest. -/
theorem RunInProgress.h_eq_digestAcc {s : State} {S : List Byte} (hr : RunInProgress s S) (hk : s.k = S.length)
    (hp : s.p = 7) : s.h = digestAcc S :=
  accs_ext _ _ fun j => by
    rcases lt_or_eq_of_le (show j ≤ s.p by omega) with hlt | rfl
    · exact hr.settled j hlt
    · exact hr.current_eq_digestAcc hk

/-- An appended byte lengthens the message held. -/
theorem HoldsMessage.append {s : State} {S : List Byte} (hm : HoldsMessage s S) (b : Byte) :
    HoldsMessage (lengthenMessage { s with msg := s.msg.write s.len b }) (S ++ [b]) := by
  obtain ⟨hlen, hread⟩ := hm
  refine ⟨by simp [hlen], fun k hk => ?_⟩
  simp only [lengthenMessage_msg, Memory.read_write, hlen]
  rcases lt_or_eq_of_le (show k ≤ S.length by simpa [Nat.lt_succ_iff] using hk) with hlt | rfl
  · rw [if_neg hlt.ne, hread k hlt, List.getElem_append_left hlt]
  · simp

/-! ### The invariants over each register update -/

/-- At the end of a pass `K = LEN` (R13). -/
theorem Inv.k_eq_len {s : State} (hi : Inv s) (hs : s.st = .busy) (hk : s.len ≤ s.k) : s.k = s.len :=
  le_antisymm (hi.k_le (.inl hs)) hk

theorem inv_raiseFault {s : State} {c : Cause} (hi : Inv s) (hc : c ≠ .eNone) : Inv (raiseFault c s) where
  acc_le := hi.acc_le
  len_le := hi.len_le
  k_le := nofun
  ecause_iff := by simpa using hc
  done_pos := nofun
  msg_wf := hi.msg_wf
  msg_bound := hi.msg_bound
  message := let ⟨S, hm, _⟩ := hi.message; ⟨S, hm, nofun, nofun⟩

theorem inv_resetRegisters {s : State} (hi : Inv s) : Inv (resetRegisters s) where
  acc_le _ := by simp
  len_le := Nat.zero_le _
  k_le := nofun
  ecause_iff := by simp
  done_pos := nofun
  msg_wf := hi.msg_wf
  msg_bound := hi.msg_bound
  message := ⟨[], ⟨rfl, nofun⟩, nofun, nofun⟩

theorem inv_clearMessage {s : State} (hi : Inv s) (hs : s.st ≠ .fault) : Inv (clearMessage s) where
  acc_le := hi.acc_le
  len_le := Nat.zero_le _
  k_le := nofun
  ecause_iff := by simpa using hi.ecause_iff.mpr hs
  done_pos := nofun
  msg_wf := hi.msg_wf
  msg_bound := hi.msg_bound
  message := ⟨[], ⟨rfl, nofun⟩, nofun, nofun⟩

theorem inv_append {s : State} (hi : Inv s) (hs : s.st ≠ .fault) (hlen : s.len < Config.MSG_CAP) (b : Byte) :
    Inv (lengthenMessage { s with msg := s.msg.write s.len b }) where
  acc_le := hi.acc_le
  len_le := hlen
  k_le := nofun
  ecause_iff := by simpa using hi.ecause_iff.mpr hs
  done_pos := nofun
  msg_wf := Memory.wf_write _ _ _ hi.msg_wf
  msg_bound a ha := (Memory.read_write_other _ _ _ _ (by omega)).trans (hi.msg_bound a ha)
  message := let ⟨S, hm, _⟩ := hi.message; ⟨S ++ [b], hm.append b, nofun, nofun⟩

theorem inv_startRun {s : State} (hi : Inv s) (hs : s.st ≠ .fault) : Inv (startRun s) where
  acc_le _ := by simp
  len_le := hi.len_le
  k_le _ := Nat.zero_le _
  ecause_iff := by simpa using hi.ecause_iff.mpr hs
  done_pos := nofun
  msg_wf := hi.msg_wf
  msg_bound := hi.msg_bound
  message := let ⟨S, hm, _⟩ := hi.message; ⟨S, hm, nofun, fun _ => runInProgress_startRun s S⟩

theorem inv_writeFolded {s : State} {b : Byte} (hi : Inv s) (hs : s.st = .busy) (hk : s.k < s.len)
    (hb : s.msg.read s.k = some b) : Inv (writeFolded (fold (prevAcc s.h s.p) b (coefAt s.p)) s) where
  acc_le j := by
    change (foldAt s.p s.h b)[j.val].toNat ≤ 254
    by_cases hj : j = s.p
    · rw [hj, foldAt_get_self]
      exact Nat.le_of_lt_succ (fold_lt _ _ _)
    · rw [foldAt_get_other _ _ _ _ j.isLt (Fin.val_ne_of_ne hj)]
      exact hi.acc_le j
  len_le := hi.len_le
  k_le _ := hk
  ecause_iff := hi.ecause_iff
  done_pos hd := by simp [hs] at hd
  msg_wf := hi.msg_wf
  msg_bound := hi.msg_bound
  message := by
    obtain ⟨S, hm, -, hr⟩ := hi.message
    have hkS : s.k < S.length := hm.1 ▸ hk
    obtain rfl : S[s.k] = b := Option.some.inj ((hm.2 s.k hkS).symm.trans hb)
    exact ⟨S, hm, fun hd => (by simp [hs] at hd), fun _ => (hr hs).writeFolded_inProgress hkS⟩

theorem inv_nextPass {s : State} (hi : Inv s) (hs : s.st = .busy) (hk : s.len ≤ s.k) (hp : s.p ≠ 7) :
    Inv (nextPass s) where
  acc_le := hi.acc_le
  len_le := hi.len_le
  k_le _ := Nat.zero_le _
  ecause_iff := hi.ecause_iff
  done_pos hd := by simp [hs] at hd
  msg_wf := hi.msg_wf
  msg_bound := hi.msg_bound
  message := by
    obtain ⟨S, hm, -, hr⟩ := hi.message
    have hkS : s.k = S.length := (hi.k_eq_len hs hk).trans hm.1
    exact ⟨S, hm, fun hd => (by simp [hs] at hd), fun _ => (hr hs).nextPass_inProgress hkS hp⟩

theorem inv_finishRun {s : State} (hi : Inv s) (hs : s.st = .busy) (hk : s.len ≤ s.k) (hp : s.p = 7) :
    Inv (finishRun s) where
  acc_le := hi.acc_le
  len_le := hi.len_le
  k_le _ := hi.k_le (.inl hs)
  ecause_iff := by simpa using hi.ecause_iff.mpr (by simp [hs])
  done_pos _ := ⟨hp, hi.k_eq_len hs hk⟩
  msg_wf := hi.msg_wf
  msg_bound := hi.msg_bound
  message := by
    obtain ⟨S, hm, -, hr⟩ := hi.message
    have hkS : s.k = S.length := (hi.k_eq_len hs hk).trans hm.1
    exact ⟨S, hm, fun _ => (hr hs).h_eq_digestAcc hkS hp, nofun⟩

/-! ### The invariants over each agent's moves -/

theorem inv_seqStep {s t : State} (hi : Inv s) (h : seqStep s = .next t) : Inv t := by
  rcases seqStep_cases s with ⟨_, e⟩ | ⟨_, _, _, e⟩ | ⟨hs, hk, b, hb, e⟩ | ⟨hs, hk, hp, e⟩ | ⟨hs, hk, hp, e⟩ <;>
    rw [e] at h <;> cases h
  · exact hi
  · exact inv_writeFolded hi hs hk hb
  · exact inv_nextPass hi hs hk hp
  · exact inv_finishRun hi hs hk hp

theorem inv_commandStep {w : CmdWord} {s t : State} (hi : Inv s) (h : commandStep w s = .next t) : Inv t := by
  rcases commandStep_cases w s t h with
    ⟨rfl, _⟩ | ⟨_, rfl⟩ | ⟨_, _, rfl⟩ | ⟨_, _, rfl⟩ | ⟨hs, ⟨_, rfl⟩ | ⟨b, _, ⟨_, rfl⟩ | ⟨hlen, rfl⟩⟩ | ⟨_, rfl⟩⟩
  · exact hi
  · exact inv_resetRegisters hi
  · exact inv_raiseFault hi nofun
  · exact inv_raiseFault hi nofun
  all_goals have hf : s.st ≠ .fault := by rcases hs with hs | hs <;> simp [hs]
  · exact inv_clearMessage hi hf
  · exact inv_raiseFault hi nofun
  · exact inv_append hi hf hlen b
  · exact inv_startRun hi hf

theorem inv_hostStep {pins : HostPins} {s t : State} (hi : Inv s) (h : hostStep pins s = .next t) : Inv t := by
  unfold hostStep at h
  split at h
  · cases h; exact inv_resetRegisters hi
  · split at h
    · exact inv_commandStep hi h
    · cases h; exact hi

/-- Every transition keeps the invariants (R23). -/
theorem inv_transition {m : Option Move} {s t : State} (hi : Inv s) (h : Transition m s t) : Inv t := by
  match m, h with
  | none, h => exact h ▸ hi
  | some (.host _), ⟨_, h⟩ => exact inv_hostStep hi h
  | some .seq, ⟨_, h⟩ => exact inv_seqStep hi h

theorem inv_execution {state : Nat → State} {move : Nat → Option Move} (he : IsExecution state move)
    (hi : Inv (state 0)) (n : Nat) : Inv (state n) := by
  induction n with
  | zero => exact hi
  | succ n ih => exact inv_transition ih (he n)

/-! ### No move stops under the invariants -/

theorem seqStep_total {s : State} (hi : Inv s) : ∃ t, seqStep s = .next t := by
  rcases seqStep_cases s with ⟨_, e⟩ | ⟨_, hk, hr, _⟩ | ⟨_, _, _, _, e⟩ | ⟨_, _, _, e⟩ | ⟨_, _, _, e⟩
  case inr.inl =>
    obtain ⟨S, ⟨hlen, hread⟩, -⟩ := hi.message
    cases hr.symm.trans (hread s.k (hlen ▸ hk))
  all_goals exact ⟨_, e⟩

theorem whenHostOwns_total {s : State} (effect : State → Result) (he : ∃ t, effect s = .next t) :
    ∃ t, whenHostOwns s effect = .next t := by
  cases hs : s.st with
  | fault => exact ⟨_, whenHostOwns_fault s effect hs⟩
  | busy => exact ⟨_, whenHostOwns_busy s effect hs⟩
  | idle => exact whenHostOwns_owned s effect (.inl hs) ▸ he
  | done => exact whenHostOwns_owned s effect (.inr hs) ▸ he

theorem appendByte_total {cap : Nat} {s : State} (b : Byte) (hlen : s.len ≤ cap) :
    ∃ t, appendByte cap b s = .next t := by
  rcases appendByte_cases cap b s with ⟨_, e⟩ | ⟨_, e⟩ | ⟨hl, _⟩
  · exact ⟨_, e⟩
  · exact ⟨_, e⟩
  · omega

theorem commandStep_total {s : State} (w : CmdWord) (hlen : s.len ≤ Config.MSG_CAP) :
    ∃ t, commandStep w s = .next t := by
  unfold commandStep
  rcases hd : decodeCommand w with e | i
  · exact ⟨_, rfl⟩
  · rcases decodeCommand_isCommand w i hd with rfl | rfl | rfl | ⟨b, rfl⟩ | rfl
    · exact ⟨_, rfl⟩
    · exact ⟨_, rfl⟩
    · exact whenHostOwns_total (fun s => .next (clearMessage s)) ⟨_, rfl⟩
    · exact whenHostOwns_total _ (appendByte_total b hlen)
    · exact whenHostOwns_total (fun s => .next (startRun s)) ⟨_, rfl⟩

theorem hostStep_total {s : State} (pins : HostPins) (hlen : s.len ≤ Config.MSG_CAP) :
    ∃ t, hostStep pins s = .next t := by
  unfold hostStep
  split
  · exact ⟨_, rfl⟩
  · split
    · exact commandStep_total _ hlen
    · exact ⟨_, rfl⟩

/-- Under the invariants every move gives a next state. -/
theorem Move.act_total {s : State} (m : Move) (hi : Inv s) : ∃ t, m.act s = .next t := by
  cases m with
  | host pins => exact hostStep_total pins hi.len_le
  | seq => exact seqStep_total hi

/-! ### The execution that follows wished moves -/

/-- The state a move leads to; `s` where nobody moves or the move stops. -/
def stateAfter (m : Option Move) (s : State) : State :=
  match m with
  | none => s
  | some m =>
    match m.act s with
    | .next t => t
    | .fault _ => s
    | .refused _ => s

/-- The states from `s` on when the agents make the wished moves that are enabled. -/
def followWishes (wish : Nat → Option Move) (s : State) : Nat → State
  | 0 => s
  | n + 1 => stateAfter (enabledOr (wish n) (followWishes wish s n)) (followWishes wish s n)

theorem enabledOr_enabled {wish : Option Move} {s : State} {m : Move} (h : enabledOr wish s = some m) :
    m.enabled s = true := by
  cases wish with
  | none => cases h
  | some m' =>
    simp only [enabledOr] at h
    split at h
    next he => cases h; exact he
    next => cases h

theorem transition_stateAfter {s : State} (wish : Option Move) (hi : Inv s) :
    Transition (enabledOr wish s) s (stateAfter (enabledOr wish s) s) := by
  cases hm : enabledOr wish s with
  | none => rfl
  | some m =>
    obtain ⟨t, ht⟩ := m.act_total hi
    exact ⟨enabledOr_enabled hm, by simp only [stateAfter, ht]⟩

theorem inv_followWishes {s : State} (wish : Nat → Option Move) (hi : Inv s) (n : Nat) :
    Inv (followWishes wish s n) := by
  induction n with
  | zero => exact hi
  | succ n ih => exact inv_transition ih (transition_stateAfter (wish n) ih)

/-- Any interleaving of enabled moves is an execution (R9). -/
theorem isExecution_followWishes {s : State} (wish : Nat → Option Move) (hi : Inv s) :
    IsExecution (followWishes wish s) fun n => enabledOr (wish n) (followWishes wish s n) :=
  fun n => transition_stateAfter (wish n) (inv_followWishes wish hi n)

/-! ### The machine's steps and runs as transitions -/

/-- A turn of the sequencer is its transition in `BUSY`, and nobody's elsewhere. -/
theorem transition_of_seqStep {s t : State} (h : seqStep s = .next t) :
    ∃ m, Transition m { s with sched := t.sched } t := by
  by_cases hb : s.st = .busy
  · exact ⟨some .seq, (State.busy_eq_true _).mpr hb, (seqStep_withSched s t t.sched h).2⟩
  · rcases seqStep_cases s with ⟨_, e⟩ | ⟨hb', _⟩ | ⟨hb', _⟩ | ⟨hb', _⟩ | ⟨hb', _⟩
    · rw [e] at h; cases h; exact ⟨none, rfl⟩
    all_goals exact absurd hb' hb

/-- Every step of the machine is, schedule apart, a transition (R9). -/
theorem transition_of_step {s t : State} (h : step s = .next t) : ∃ m, Transition m { s with sched := t.sched } t := by
  rcases hs : s.sched with _ | ⟨pins | _ | _, rest⟩ <;> simp only [step, hs] at h
  · exact transition_of_seqStep h
  · exact ⟨some (.host pins), rfl, ((Move.host pins).act_withSched _ t t.sched h).2⟩
  · exact transition_of_seqStep (s := { s with sched := rest }) h
  · split at h
    · exact transition_of_seqStep h
    · cases h; exact ⟨none, rfl⟩

theorem coreRun_succ {M : Host.Core} {s t : M.State} (n : Nat) (h : M.step s = .next t) :
    M.run (n + 1) s = M.run n t := by
  simp only [Host.Core.run, h]

theorem runSteps_succ {s t : State} (n : Nat) (h : step s = .next t) : runSteps (n + 1) s = runSteps n t :=
  coreRun_succ (M := Sys2Proof.core) n h

/-- The schedule of the first moves begins with the first move, if there is one. -/
theorem scheduleOfMoves_succ (move : Nat → Option Move) (n : Nat) :
    scheduleOfMoves move (n + 1) =
      ((move 0).map Move.event).toList ++ scheduleOfMoves (fun i => move (i + 1)) n := by
  cases h : move 0 <;>
    simp [scheduleOfMoves, List.range_succ_eq_map, h, List.filterMap_map]

/-- The beginning of an execution is the machine's run under the schedule of its moves. -/
theorem runSteps_scheduleOfMoves (n : Nat) (state : Nat → State) (move : Nat → Option Move)
    (he : IsExecution state move) :
    runSteps (scheduleOfMoves move n).length { state 0 with sched := scheduleOfMoves move n } =
      .next { state n with sched := [] } := by
  induction n generalizing state move with
  | zero => rfl
  | succ n ih =>
    have ih := ih (fun i => state (i + 1)) (fun i => move (i + 1)) fun i => he (i + 1)
    have h0 := he 0
    rw [scheduleOfMoves_succ]
    cases hm : move 0 with
    | none =>
      rw [hm] at h0
      rw [show state 1 = state 0 from h0] at ih
      exact ih
    | some m =>
      rw [hm] at h0
      have hstep := (step_move m { state 0 with sched := m.event :: _ } _ rfl).trans
        (m.act_withSched (state 0) (state 1) (scheduleOfMoves (fun i => move (i + 1)) n) h0.2).2
      exact (runSteps_succ _ hstep).trans ih

/-! ### A host that polls for ever -/

theorem transition_nop (s : State) : Transition (some (.host (commandPins 0x000#11))) s s := ⟨rfl, rfl⟩

/-- Polling for ever is fair to the sequencer exactly if the sequencer has no step. -/
theorem weaklyFair_nop_iff (s : State) :
    WeaklyFair (fun _ => s) (fun _ => some (.host (commandPins 0x000#11))) ↔ s.st ≠ .busy := by
  constructor
  · intro hf hb
    obtain ⟨_, _, h⟩ := hf ⟨0, fun _ _ => hb⟩ 0
    cases h
  · rintro hb ⟨N, hN⟩
    exact absurd (hN N le_rfl) hb

/-! ### The statements -/

/-- Settles O60: a step and an execution's beginning are tied to each other by the moves, which do not read the schedule;
the invariants are kept by every transition, and no enabled move stops under them. -/
theorem executionsInterleaveTheAgents : Obligations.ExecutionsInterleaveTheAgents :=
  ⟨fun _ _ => transition_of_step,
    fun state move he n => runSteps_scheduleOfMoves n state move he,
    fun s hi wish => ⟨followWishes wish s, _, rfl, isExecution_followWishes wish hi, fun _ => rfl⟩,
    fun _ _ => inv_execution,
    fun s => ⟨fun _ => transition_nop s, weaklyFair_nop_iff s⟩⟩

/-- Every length up to `MSG_CAP` is below `2 ^ LENW` (R6). -/
theorem lt_two_pow_LENW {n : Nat} (h : n ≤ Config.MSG_CAP) : n < 2 ^ Config.LENW :=
  lt_of_lt_of_le (Nat.lt_succ_of_le h) (Nat.le_pow_clog (by decide) _)

/-- Settles O37: a length up to `MSG_CAP` fits in `LENW` bits. -/
theorem lenPortShowsLen : Obligations.LenPortShowsLen := fun s hlen => by
  rw [lenO, BitVec.toNat_ofNat, Nat.mod_eq_of_lt (lt_two_pow_LENW hlen)]

end Sys2Proof.Machine
end

section
/-! SUPPORT. The statements of 10_state.md: the reset state and the invariants over every step, the writers of the
accumulators, and the output ports. -/

namespace Sys2Proof.Machine

/-! ### The reset state, and the invariants over every step -/

/-- Settles O27: the reset state is a constant, and its ports are computed from it; `len_o` is 0 in any width. -/
theorem resetStateIsAsListed : Obligations.ResetStateIsAsListed :=
  ⟨by decide, rfl, rfl, rfl, rfl, rfl, rfl, rfl, rfl, rfl, rfl, rfl⟩

/-- Settles O28: no cell of `MSG` is written, so the message is the empty one, and the status is `IDLE`. -/
theorem resetMeetsTheInvariants : Obligations.ResetMeetsTheInvariants where
  acc_le := by decide
  len_le := Nat.zero_le _
  k_le _ := le_rfl
  ecause_iff := by decide
  done_pos := nofun
  msg_wf := rfl
  msg_bound _ _ := rfl
  message := ⟨[], ⟨rfl, nofun⟩, nofun, nofun⟩

theorem RunInProgress.withSched {s : State} {S : List Byte} (hr : RunInProgress s S) (es : List Event) :
    RunInProgress { s with sched := es } S :=
  ⟨hr.settled, hr.unstarted, hr.folded, hr.untouched⟩

/-- The invariants do not read the schedule. -/
theorem Inv.withSched {s : State} (hi : Inv s) (es : List Event) : Inv { s with sched := es } :=
  let ⟨S, hm, hdone, hrun⟩ := hi.message
  ⟨hi.acc_le, hi.len_le, hi.k_le, hi.ecause_iff, hi.done_pos, hi.msg_wf, hi.msg_bound,
    S, hm, hdone, fun hb => (hrun hb).withSched es⟩

/-- Settles O29: a step is, schedule apart, a transition of an agent, and every transition keeps the invariants. -/
theorem stepKeepsTheInvariants : Obligations.StepKeepsTheInvariants := fun _ t hi h =>
  let ⟨_, ht⟩ := transition_of_step h
  inv_transition (hi.withSched t.sched) ht

/-! ### Pins that are ignored -/

/-- Settles O10: the step is the host's move, which with neither pin asserted is the identity. -/
theorem pinsWithoutValidAreIgnored : Obligations.PinsWithoutValidAreIgnored := fun s pins rest hr hv hs => by
  simp [step_move (.host pins) s rest hs, Move.act, hostStep, hr, hv]

/-! ### The words of commands -/

theorem encode_of_mem_commandOfOp : ∀ op : BitVec 3, ∀ i ∈ commandOfOp op, encode i = .cmd (cmdWord op 0#8) := by
  decide

/-- A command word is made of its two fields (R39). -/
theorem cmdWord_fields (w : CmdWord) : cmdWord (opField w) (imm8Field w) = w :=
  BitVec.extractLsb'_append_extractLsb' (w := 3) (len := 8)

/-- A word that decodes to a command is that command's encoding (R41). -/
theorem encode_of_decodeCommand {w : CmdWord} {i : Instr} (h : decodeCommand w = .ok i) : encode i = .cmd w := by
  unfold decodeCommand at h
  split at h
  next hop =>
    cases h
    rw [encode, ← hop, cmdWord_fields]
  next =>
    split at h
    next hc =>
      split at h
      next himm =>
        cases h
        rw [encode_of_mem_commandOfOp _ _ hc, ← himm, cmdWord_fields]
      next => cases h
    next => cases h

/-- `GO` has the one word `0x400` (R41). -/
theorem eq_of_decodeCommand_go {w : CmdWord} (h : decodeCommand w = .ok .go) : w = 0x400#11 :=
  (FetchWord.cmd.inj (encode_of_decodeCommand h)).symm

/-! ### The writers of the accumulators -/

/-- A turn of the sequencer leaves the accumulators or is a `FOLD`, which writes `H[P]` only (R59 to R61). -/
theorem seqStep_h_cases {s t : State} (h : seqStep s = .next t) :
    t.h = s.h ∨
      (s.st = .busy ∧ s.k < s.len ∧ exec .fold s = .next t ∧ ∀ j : Fin 8, j ≠ s.p → t.h[j] = s.h[j]) := by
  rcases seqStep_cases s with ⟨_, e⟩ | ⟨_, _, _, e⟩ | ⟨hb, hk, b, _, e⟩ | ⟨_, _, _, e⟩ | ⟨_, _, _, e⟩
  case inr.inr.inl =>
    have hsel : decodeSelect s.selectWord = .fold := by rw [decodeSelect_selectWord, if_pos hb, if_pos hk]
    refine .inr ⟨hb, hk, by rwa [seqStep, hsel] at h, fun j hj => ?_⟩
    cases e.symm.trans h
    exact foldAt_get_other s.p s.h b j j.isLt (Fin.val_ne_of_ne hj)
  case inr.inl => cases e.symm.trans h
  all_goals cases e.symm.trans h; exact .inl rfl

/-- A command leaves the accumulators or zeroes them, by `RST` or by `GO` in `IDLE` or `DONE` (R79, R82). -/
theorem commandStep_h_cases {w : CmdWord} {s t : State} (h : commandStep w s = .next t) :
    t.h = s.h ∨
      (t.h = zeroAccs ∧
        (decodeCommand w = .ok .rst ∨ (decodeCommand w = .ok .go ∧ (s.st = .idle ∨ s.st = .done)))) := by
  rcases commandStep_cases w s t h with
    ⟨rfl, _⟩ | ⟨hd, rfl⟩ | ⟨_, _, rfl⟩ | ⟨_, _, rfl⟩ | ⟨hs, ⟨_, rfl⟩ | ⟨b, _, ⟨_, rfl⟩ | ⟨_, rfl⟩⟩ | ⟨hd, rfl⟩⟩
  case inr.inl => exact .inr ⟨rfl, .inl hd⟩
  case inr.inr.inr.inr.inr.inr => exact .inr ⟨rfl, .inr ⟨hd, hs⟩⟩
  all_goals exact .inl rfl

/-- A host move leaves the accumulators or zeroes them, by a reset, `RST`, or `GO` in `IDLE` or `DONE`. -/
theorem hostStep_h_cases {pins : HostPins} {s t : State} (h : hostStep pins s = .next t) :
    t.h = s.h ∨
      (t.h = zeroAccs ∧ (pins.recovers = true ∨ (pins = commandPins 0x400#11 ∧ (s.st = .idle ∨ s.st = .done)))) := by
  obtain ⟨rst, valid, w⟩ := pins
  match rst, valid with
  | true, _ => cases h; exact .inr ⟨rfl, .inl rfl⟩
  | false, false => cases h; exact .inl rfl
  | false, true =>
    rcases commandStep_h_cases h with hkeep | ⟨hzero, hd | ⟨hd, hs⟩⟩
    · exact .inl hkeep
    · exact .inr ⟨hzero, .inl (by simp [HostPins.recovers, hd])⟩
    · exact .inr ⟨hzero, .inr ⟨congrArg commandPins (eq_of_decodeCommand_go hd), hs⟩⟩

/-- The sequencer has no step outside `BUSY` (R58). -/
theorem seqStep_of_not_busy {s : State} (hb : s.st ≠ .busy) : seqStep s = .next s := by
  rcases seqStep_cases s with ⟨_, e⟩ | ⟨hb', _⟩ | ⟨hb', _⟩ | ⟨hb', _⟩ | ⟨hb', _⟩
  · exact e
  all_goals exact absurd hb' hb

/-- A step with no host move at the head of the schedule is, schedule apart, a turn of the sequencer (R9, R58). -/
theorem seqStep_of_step {s t : State} (hno : ∀ pins rest, s.sched ≠ .host pins :: rest) (h : step s = .next t) :
    seqStep { s with sched := t.sched } = .next t := by
  rcases hs : s.sched with _ | ⟨pins | _ | _, rest⟩ <;> simp only [step, hs] at h
  · exact (seqStep_withSched s t t.sched h).2
  · exact absurd hs (hno pins rest)
  · exact (seqStep_withSched _ t t.sched h).2
  · split at h
    next => exact (seqStep_withSched s t t.sched h).2
    next hb =>
      cases h
      exact seqStep_of_not_busy fun hbusy => hb (s.busy_eq_true.mpr hbusy)

/-- Settles O33: a host move zeroes or leaves the accumulators, and every other step is a turn of the sequencer. -/
theorem accumulatorsChangeOnlyByFoldOrToZero : Obligations.AccumulatorsChangeOnlyByFoldOrToZero := fun s t h => by
  by_cases hhost : ∃ pins rest, s.sched = .host pins :: rest
  · obtain ⟨pins, rest, hs⟩ := hhost
    rw [step_move (.host pins) s rest hs] at h
    exact (hostStep_h_cases h).imp_right fun ⟨hzero, hp⟩ => .inl ⟨hzero, pins, rest, hs, hp⟩
  · have hno : ∀ pins rest, s.sched ≠ .host pins :: rest := fun pins rest hs => hhost ⟨pins, rest, hs⟩
    exact (seqStep_h_cases (seqStep_of_step hno h)).imp_right
      fun ⟨hb, hk, hfold, hother⟩ => .inr ⟨hb, hk, hno, hfold, hother⟩

/-! ### The status ports -/

theorem ofBool_eq_one_iff (b : Bool) : BitVec.ofBool b = 1#1 ↔ b = true := by revert b; decide

/-- Settles O36: the flags decode `ST`, and no status is both `DONE` and `FAULT`. -/
theorem statusPortsDecodeTheStatus : Obligations.StatusPortsDecodeTheStatus := fun s => by
  have hb : busyO s = 1#1 ↔ s.st = .busy := (ofBool_eq_one_iff _).trans s.busy_eq_true
  have hd : doneO s = 1#1 ↔ s.st = .done := (ofBool_eq_one_iff _).trans s.done_eq_true
  have hf : faultO s = 1#1 ↔ s.st = .fault := (ofBool_eq_one_iff _).trans s.faulted_eq_true
  refine ⟨?_, ?_, hb, hd, hf, ?_⟩
  · cases hs : s.st <;> simp [stO, Status.code, hs]
  · cases hs : s.ecause <;> simp [ecauseO, Cause.code, hs]
  · rw [hd, hf]
    rintro ⟨hdone, hfault⟩
    cases hdone.symm.trans hfault

/-! ### Bytes packed on a port -/

/-- The bytes packed on a port are a number of as many bits (R28, R47). -/
theorem packBytes_lt (bs : List Byte) : packBytes bs < 2 ^ (8 * bs.length) := by
  induction bs with
  | nil => simp [packBytes]
  | cons b bs ih =>
    have hb := b.isLt
    rw [packBytes, List.length_cons, Nat.mul_succ, Nat.pow_add]
    omega

/-- The byte at position `c` of the packed number (R28, R47). -/
theorem packBytes_byte {bs : List Byte} {c : Nat} {b : Byte} (h : bs[c]? = some b) :
    packBytes bs / 2 ^ (8 * c) % 256 = b.toNat := by
  induction bs generalizing c with
  | nil => cases h
  | cons a bs ih =>
    have ha := a.isLt
    cases c with
    | zero =>
      cases h
      simp only [packBytes]
      omega
    | succ c =>
      rw [← ih h, packBytes, Nat.mul_succ, Nat.add_comm (8 * c), Nat.pow_add, ← Nat.div_div_eq_div_mul]
      congr 2
      omega

/-- Byte `c` of a port wide enough for the bytes packed on it. -/
theorem extractLsb'_packBytes {n c : Nat} {bs : List Byte} {b : Byte} (hn : 8 * bs.length ≤ n) (h : bs[c]? = some b) :
    (BitVec.ofNat n (packBytes bs)).extractLsb' (8 * c) 8 = b := by
  apply BitVec.eq_of_toNat_eq
  rw [BitVec.extractLsb'_toNat, BitVec.toNat_ofNat, Nat.shiftRight_eq_div_pow,
    Nat.mod_eq_of_lt ((packBytes_lt bs).trans_le (Nat.pow_le_pow_right (by decide) hn))]
  exact packBytes_byte h

/-! ### The characters of the encoder -/

/-- The mask leaves an accumulator value as it is (R12). -/
@[simp] theorem mask8_toNat (b : Byte) : mask8 b.toNat = b := by
  have hmask : b.toNat &&& 0xFF = b.toNat % 256 := Nat.and_two_pow_sub_one_eq_mod b.toNat 8
  rw [mask8, hmask, Nat.mod_eq_of_lt b.isLt, BitVec.ofNat_toNat, BitVec.setWidth_eq]

theorem hexEnc_length (V : List Nat) : (hexEnc V).length = 2 * V.length := by
  induction V with
  | nil => rfl
  | cons v V ih => simp [hexEnc, hexPair, ih]; omega

/-- Value `j` gives characters `2j`, its high nibble, and `2j + 1`, its low nibble (R46, R70). -/
theorem hexEnc_getElem? {V : List Nat} {j v : Nat} (h : V[j]? = some v) :
    (hexEnc V)[2 * j]? = some (hexchar ((mask8 v).extractLsb' 4 4)) ∧
    (hexEnc V)[2 * j + 1]? = some (hexchar ((mask8 v).extractLsb' 0 4)) := by
  induction V generalizing j with
  | nil => cases h
  | cons u V ih =>
    cases j with
    | zero => cases h; exact ⟨rfl, rfl⟩
    | succ j => exact ih (j := j) h

/-- Settles O38: accumulator `j` is byte `j` of `dig_o` and gives the encoder's characters `2j` and `2j + 1`, the bytes of
`hex_o` at these positions. -/
theorem resultPortsInDone : Obligations.ResultPortsInDone := fun s n hd j => by
  have hdone : s.done = true := s.done_eq_true.mpr hd
  have hacc : s.h.toList[j.val]? = some s.h[j] := by simp
  have hval : (s.h.toList.map BitVec.toNat)[j.val]? = some s.h[j].toNat := by simp
  obtain ⟨hhigh, hlow⟩ := hexEnc_getElem? hval
  rw [mask8_toNat] at hhigh hlow
  have hlen : 8 * (hexCh s).length ≤ 128 := by simp [hexCh, hexEncAccs, hexEnc_length]
  rw [digO, hexO, if_pos hdone, if_pos hdone]
  exact ⟨extractLsb'_packBytes (by simp) hacc, extractLsb'_packBytes hlen hhigh, extractLsb'_packBytes hlen hlow⟩

end Sys2Proof.Machine
end

section
/-! SUPPORT. The statements of 20_memory.md: what the moves of each agent do to `MSG` and `LEN`, the cells at or above
`LEN`, and the loading of a message byte by byte. -/

namespace Sys2Proof.Machine

/-! ### The word of `LDB` -/

@[simp] theorem opField_cmdWord (op : BitVec 3) (b : Byte) : opField (cmdWord op b) = op :=
  BitVec.extractLsb'_append_eq_left

@[simp] theorem imm8Field_cmdWord (op : BitVec 3) (b : Byte) : imm8Field (cmdWord op b) = b :=
  BitVec.extractLsb'_append_eq_right

/-- The two fields of the word `0x300 + b` (R41). -/
theorem cmdWord_ldb (b : Byte) : cmdWord 0b011#3 b = 0x300#11 + b.zeroExtend 11 := by
  have hb := b.isLt
  apply BitVec.eq_of_toNat_eq
  rw [cmdWord, BitVec.toNat_append, ← Nat.shiftLeft_add_eq_or_of_lt hb]
  simp
  omega

/-- `0x300 + b` is a word of `LDB b` (R41). -/
theorem decodeCommand_ldb (b : Byte) : decodeCommand (0x300#11 + b.zeroExtend 11) = .ok (.ldb b) := by
  simp [← cmdWord_ldb, decodeCommand]

/-- `LDB b` has the one word `0x300 + b` (R41). -/
theorem eq_of_decodeCommand_ldb {w : CmdWord} {b : Byte} (h : decodeCommand w = .ok (.ldb b)) :
    w = 0x300#11 + b.zeroExtend 11 :=
  (FetchWord.cmd.inj (encode_of_decodeCommand h)).symm.trans (cmdWord_ldb b)

/-! ### The message over the moves of each agent -/

/-- Each step is, schedule apart, the host's move at the head of the schedule or a turn of the sequencer (R9). -/
theorem hostStep_or_seqStep_of_step {s t : State} (h : step s = .next t) :
    (∃ pins rest, s.sched = .host pins :: rest ∧ hostStep pins { s with sched := rest } = .next t) ∨
      seqStep { s with sched := t.sched } = .next t := by
  by_cases hhost : ∃ pins rest, s.sched = .host pins :: rest
  · obtain ⟨pins, rest, hs⟩ := hhost
    exact .inl ⟨pins, rest, hs, (step_move (.host pins) s rest hs).symm.trans h⟩
  · exact .inr (seqStep_of_step (fun pins rest hs => hhost ⟨pins, rest, hs⟩) h)

/-- The sequencer writes neither `MSG` nor `LEN`, and of the status it writes `DONE` only (R59 to R61). -/
theorem seqStep_keeps_message {s t : State} (h : seqStep s = .next t) :
    t.msg = s.msg ∧ t.len = s.len ∧ (t.st = s.st ∨ t.st = .done) := by
  rcases seqStep_cases s with ⟨_, e⟩ | ⟨_, _, _, e⟩ | ⟨_, _, b, _, e⟩ | ⟨_, _, _, e⟩ | ⟨_, _, _, e⟩ <;>
    cases e.symm.trans h
  · exact ⟨rfl, rfl, .inl rfl⟩
  · exact ⟨rfl, rfl, .inl rfl⟩
  · exact ⟨rfl, rfl, .inl rfl⟩
  · exact ⟨rfl, rfl, .inr rfl⟩

/-- A command in `BUSY` is `NOP`, raises a fault, or is `RST` (R77). -/
theorem commandStep_of_busy {w : CmdWord} {s t : State} (hb : s.st = .busy) (h : commandStep w s = .next t) :
    t = s ∨ (∃ c, t = raiseFault c s) ∨ (decodeCommand w = .ok .rst ∧ t = resetRegisters s) := by
  rcases commandStep_cases w s t h with ⟨rfl, _⟩ | hrst | ⟨_, _, rfl⟩ | ⟨_, _, rfl⟩ | ⟨hown, _⟩
  · exact .inl rfl
  · exact .inr (.inr hrst)
  · exact .inr (.inl ⟨_, rfl⟩)
  · exact .inr (.inl ⟨_, rfl⟩)
  · simp [hb] at hown

/-- A host move in `BUSY` changes nothing, raises a fault, or is a reset or `RST` (R77, R99). -/
theorem hostStep_of_busy {pins : HostPins} {s t : State} (hb : s.st = .busy) (h : hostStep pins s = .next t) :
    t = s ∨ (∃ c, t = raiseFault c s) ∨ (pins.recovers = true ∧ t = resetRegisters s) := by
  obtain ⟨rst, valid, w⟩ := pins
  match rst, valid with
  | true, _ => cases h; exact .inr (.inr ⟨rfl, rfl⟩)
  | false, false => cases h; exact .inl rfl
  | false, true =>
    exact (commandStep_of_busy hb h).imp_right <| .imp_right fun ⟨hd, ht⟩ => ⟨by simp [HostPins.recovers, hd], ht⟩

/-- Settles O31: in `BUSY` the sequencer and a fault keep the message, and what else the host can do is a reset. -/
theorem messageIsImmutableDuringARun : Obligations.MessageIsImmutableDuringARun := fun s t h hb => by
  rcases hostStep_or_seqStep_of_step h with ⟨pins, rest, hs, hmove⟩ | hturn
  · rcases hostStep_of_busy (s := { s with sched := rest }) hb hmove with rfl | ⟨c, rfl⟩ | ⟨hrec, rfl⟩
    · exact ⟨rfl, fun _ => rfl, fun hidle => by simp [hb] at hidle⟩
    · exact ⟨rfl, fun _ => rfl, fun hidle => by simp at hidle⟩
    · exact ⟨rfl, fun hst => by simp at hst, fun _ => ⟨pins, rest, hs, hrec⟩⟩
  · obtain ⟨hmsg, hlen, hst⟩ := seqStep_keeps_message hturn
    refine ⟨hmsg, fun _ => hlen, fun hidle => ?_⟩
    simp [hidle, hb] at hst

/-- A command leaves `MSG` or is an `LDB` that appends its byte (R27, R81). -/
theorem commandStep_msg_cases {w : CmdWord} {s t : State} (h : commandStep w s = .next t) :
    t.msg = s.msg ∨
      ∃ b, decodeCommand w = .ok (.ldb b) ∧ (s.st = .idle ∨ s.st = .done) ∧ s.len < Config.MSG_CAP ∧
        t = lengthenMessage { s with msg := s.msg.write s.len b } := by
  rcases commandStep_cases w s t h with
    ⟨rfl, _⟩ | ⟨_, rfl⟩ | ⟨_, _, rfl⟩ | ⟨_, _, rfl⟩ | ⟨hs, ⟨_, rfl⟩ | ⟨b, hd, ⟨_, rfl⟩ | ⟨hlen, rfl⟩⟩ | ⟨_, rfl⟩⟩
  case inr.inr.inr.inr.inr.inl.inr => exact .inr ⟨b, hd, hs, hlen, rfl⟩
  all_goals exact .inl rfl

/-- A host move leaves `MSG` or is a transaction of `LDB` that appends its byte (R27, R81). -/
theorem hostStep_msg_cases {pins : HostPins} {s t : State} (h : hostStep pins s = .next t) :
    t.msg = s.msg ∨
      ∃ b, pins = commandPins (0x300#11 + b.zeroExtend 11) ∧ (s.st = .idle ∨ s.st = .done) ∧
        s.len < Config.MSG_CAP ∧ t = lengthenMessage { s with msg := s.msg.write s.len b } := by
  obtain ⟨rst, valid, w⟩ := pins
  match rst, valid with
  | true, _ => cases h; exact .inl rfl
  | false, false => cases h; exact .inl rfl
  | false, true =>
    exact (commandStep_msg_cases h).imp_right fun ⟨b, hd, happend⟩ =>
      ⟨b, congrArg commandPins (eq_of_decodeCommand_ldb hd), happend⟩

/-- Settles O34: the sequencer leaves `MSG`, and the one host move that writes it is the `LDB` that appends at `LEN`. -/
theorem onlyLdbWritesTheMessageBuffer : Obligations.OnlyLdbWritesTheMessageBuffer := fun s t h => by
  rcases hostStep_or_seqStep_of_step h with ⟨pins, rest, hs, hmove⟩ | hturn
  · refine (hostStep_msg_cases hmove).imp_right fun ⟨b, hpins, hown, hlen, ht⟩ => ?_
    subst hpins ht
    exact ⟨b, rest, hs, hown, hlen, rfl, Memory.read_write_same _ _ _, fun a ha => Memory.read_write_other _ _ _ _ ha⟩
  · exact .inl (seqStep_keeps_message hturn).1

/-! ### Cells at or above `LEN` -/

/-- What gives a next state from `s` gives one from every state that agrees with `s` below `LEN`, and the next states
agree likewise (R38). -/
def KeepsAgreement (f : State → Result) : Prop :=
  ∀ s s' t : State, AgreeBelowLen s s' → f s = .next t → ∃ t', f s' = .next t' ∧ AgreeBelowLen t t'

theorem AgreeBelowLen.sched_eq {s s' : State} (ha : AgreeBelowLen s s') : s'.sched = s.sched := by rw [ha.1]

theorem AgreeBelowLen.st_eq {s s' : State} (ha : AgreeBelowLen s s') : s'.st = s.st := by rw [ha.1]

theorem AgreeBelowLen.len_eq {s s' : State} (ha : AgreeBelowLen s s') : s'.len = s.len := by rw [ha.1]

theorem AgreeBelowLen.selectWord_eq {s s' : State} (ha : AgreeBelowLen s s') : s'.selectWord = s.selectWord := by
  rw [ha.1]
  rfl

theorem AgreeBelowLen.byteOperand_eq {s s' : State} (ha : AgreeBelowLen s s') : s'.byteOperand = s.byteOperand := by
  obtain ⟨heq, hread⟩ := ha
  rw [heq]
  simp only [State.byteOperand, State.memRead]
  split
  next hk => exact (hread s.k hk).symm
  next => rfl

/-- A register update that does not read `MSG` and does not lengthen the message keeps the agreement. -/
theorem AgreeBelowLen.update {s s' : State} (ha : AgreeBelowLen s s') (f : State → State)
    (hf : ∀ m, f { s with msg := m } = { f s with msg := m }) (hlen : (f s).len ≤ s.len) : AgreeBelowLen (f s) (f s') := by
  obtain ⟨heq, hread⟩ := ha
  have hmsg : (f s).msg = s.msg := (congrArg State.msg (hf s.msg) :)
  rw [heq, hf s'.msg]
  exact ⟨rfl, fun a hlt => hmsg ▸ hread a (hlt.trans_le hlen)⟩

theorem AgreeBelowLen.withSched {s s' : State} (ha : AgreeBelowLen s s') (es : List Event) :
    AgreeBelowLen { s with sched := es } { s' with sched := es } :=
  ha.update (fun s => { s with sched := es }) (fun _ => rfl) le_rfl

/-- The appended byte is the same in both states, and it stands in the one cell that becomes part of the message. -/
theorem AgreeBelowLen.append {s s' : State} (ha : AgreeBelowLen s s') (b : Byte) :
    AgreeBelowLen (lengthenMessage { s with msg := s.msg.write s.len b })
      (lengthenMessage { s' with msg := s'.msg.write s'.len b }) := by
  obtain ⟨heq, hread⟩ := ha
  rw [heq]
  refine ⟨rfl, fun a hlt => ?_⟩
  simp only [lengthenMessage_len] at hlt
  simp only [lengthenMessage_msg, Memory.read_write]
  split
  next => rfl
  next hne => exact hread a (by omega)

/-- A register update as in `AgreeBelowLen.update`, as the effect of an instruction. -/
theorem keepsAgreement_next (f : State → State) (hf : ∀ s m, f { s with msg := m } = { f s with msg := m })
    (hlen : ∀ s, (f s).len ≤ s.len) : KeepsAgreement fun s => .next (f s) := by
  intro s s' t ha h
  cases h
  exact ⟨f s', rfl, ha.update f (hf s) (hlen s)⟩

theorem KeepsAgreement.whenHostOwns {effect : State → Result} (he : KeepsAgreement effect) :
    KeepsAgreement fun s => whenHostOwns s effect := by
  intro s s' t ha (h : Machine.whenHostOwns s effect = .next t)
  have hst := ha.st_eq
  have howned (hown : s.st = .idle ∨ s.st = .done) :
      ∃ t', Machine.whenHostOwns s' effect = .next t' ∧ AgreeBelowLen t t' := by
    rw [whenHostOwns_owned s _ hown] at h
    rw [whenHostOwns_owned s' _ (by rwa [hst])]
    exact he s s' t ha h
  cases hs : s.st with
  | fault =>
    rw [whenHostOwns_fault s _ hs] at h
    cases h
    exact ⟨s', whenHostOwns_fault s' _ (hst.trans hs), ha⟩
  | busy =>
    rw [whenHostOwns_busy s _ hs] at h
    cases h
    exact ⟨_, whenHostOwns_busy s' _ (hst.trans hs), ha.update (raiseFault .eBusy) (fun _ => rfl) le_rfl⟩
  | idle => exact howned (.inl hs)
  | done => exact howned (.inr hs)

theorem KeepsAgreement.whenSelected {effect : State → Result} (he : KeepsAgreement effect) (op : Instr) :
    KeepsAgreement fun s => whenSelected op s effect := by
  intro s s' t ha h
  simp only [Machine.whenSelected, ha.selectWord_eq] at h ⊢
  split at h
  next hsel => rw [if_pos hsel]; exact he s s' t ha h
  next => cases h

theorem keepsAgreement_appendByte (cap : Nat) (b : Byte) : KeepsAgreement (appendByte cap b) := by
  intro s s' t ha h
  rcases appendByte_cases cap b s with ⟨hl, e⟩ | ⟨hl, e⟩ | ⟨_, e⟩ <;> cases e.symm.trans h
  · exact ⟨_, by rw [appendByte, if_pos (ha.len_eq.trans hl)], ha.update (raiseFault .eOvf) (fun _ => rfl) le_rfl⟩
  · rw [← ha.len_eq] at hl
    exact ⟨_, by rw [appendByte, if_neg hl.ne, memWrite_of_lt _ _ _ _ hl], ha.append b⟩

theorem keepsAgreement_foldByte : KeepsAgreement foldByte := by
  intro s s' t ha h
  simp only [foldByte, ha.byteOperand_eq] at h ⊢
  split at h
  next b _ =>
    cases h
    exact ⟨_, rfl, ha.update (fun s => writeFolded (fold s.prevOperand b s.coefOperand) s) (fun _ => rfl) le_rfl⟩
  next => cases h

/-- No instruction lets a cell at or above `LEN` reach anything else. -/
theorem keepsAgreement_exec (i : Instr) : KeepsAgreement (exec i) := by
  cases i with
  | nop => exact keepsAgreement_next id (fun _ _ => rfl) fun _ => le_rfl
  | rst => exact keepsAgreement_next resetRegisters (fun _ _ => rfl) fun _ => Nat.zero_le _
  | clrm => exact (keepsAgreement_next clearMessage (fun _ _ => rfl) fun _ => Nat.zero_le _).whenHostOwns
  | ldb b => exact (keepsAgreement_appendByte Config.MSG_CAP b).whenHostOwns
  | go => exact (keepsAgreement_next startRun (fun _ _ => rfl) fun _ => le_rfl).whenHostOwns
  | fold => exact keepsAgreement_foldByte.whenSelected .fold
  | next => exact (keepsAgreement_next nextPass (fun _ _ => rfl) fun _ => le_rfl).whenSelected .next
  | fin => exact (keepsAgreement_next finishRun (fun _ _ => rfl) fun _ => le_rfl).whenSelected .fin
  | hold => exact (keepsAgreement_next id (fun _ _ => rfl) fun _ => le_rfl).whenSelected .hold

theorem keepsAgreement_seqStep : KeepsAgreement seqStep := by
  intro s s' t ha h
  rw [seqStep, ha.selectWord_eq]
  exact keepsAgreement_exec _ s s' t ha h

theorem keepsAgreement_commandStep (w : CmdWord) : KeepsAgreement (commandStep w) := by
  intro s s' t ha h
  unfold commandStep at h ⊢
  split at h
  next i _ => exact keepsAgreement_exec i s s' t ha h
  next =>
    refine keepsAgreement_next illegalCommand (fun s m => ?_) (fun s => ?_) s s' t ha h <;>
      cases hs : s.st <;> simp [illegalCommand, hs, raiseFault]

theorem keepsAgreement_hostStep (pins : HostPins) : KeepsAgreement (hostStep pins) := by
  intro s s' t ha h
  obtain ⟨rst, valid, w⟩ := pins
  match rst, valid with
  | true, _ => exact keepsAgreement_exec .rst s s' t ha h
  | false, false => exact keepsAgreement_exec .nop s s' t ha h
  | false, true => exact keepsAgreement_commandStep w s s' t ha h

/-- Settles O35: both states have the same schedule and status, so the same agent moves, and its move keeps the agreement. -/
theorem cellsAboveLenReachNothing : Obligations.CellsAboveLenReachNothing := fun s s' t ha h => by
  have hsched := ha.sched_eq
  rcases hs : s.sched with _ | ⟨pins | _ | _, rest⟩ <;> rw [hs] at hsched <;> simp only [step, hs, hsched] at h ⊢
  · exact keepsAgreement_seqStep s s' t ha h
  · exact keepsAgreement_hostStep pins _ _ t (ha.withSched rest) h
  · exact keepsAgreement_seqStep _ _ t (ha.withSched rest) h
  · have hbusy : s'.busy = s.busy := by rw [ha.1]; rfl
    rw [hbusy]
    split at h
    next hb => rw [if_pos hb]; exact keepsAgreement_seqStep s s' t ha h
    next hb => rw [if_neg hb]; cases h; exact ⟨_, rfl, ha.withSched rest⟩

/-! ### Loading a message -/

/-- A run of several steps begins with a step. -/
theorem exists_step_of_runSteps_succ {m : Nat} {s t : State} (h : runSteps (m + 1) s = .next t) :
    ∃ u, step s = .next u ∧ runSteps m u = .next t := by
  cases hstep : step s with
  | next u => exact ⟨u, rfl, (runSteps_succ m hstep).symm.trans h⟩
  | fault r => simp [runSteps, Host.Core.run, core, hstep] at h
  | refused r => simp [runSteps, Host.Core.run, core, hstep] at h

theorem runSteps_add {m : Nat} {s t : State} (n : Nat) (h : runSteps m s = .next t) :
    runSteps (m + n) s = runSteps n t := by
  induction m generalizing s with
  | zero => cases h; rw [Nat.zero_add]
  | succ m ih =>
    obtain ⟨u, hstep, hrun⟩ := exists_step_of_runSteps_succ h
    rw [Nat.succ_add, runSteps_succ _ hstep, ih hrun]

/-- A step whose transaction is `LDB b`, while the host owns the message, is the append of `b` (R81). -/
theorem step_ldb {s : State} {w : CmdWord} {b : Byte} {rest : List Event} (hs : s.sched = .host (commandPins w) :: rest)
    (hw : decodeCommand w = .ok (.ldb b)) (hown : s.st = .idle ∨ s.st = .done) :
    step s = appendByte Config.MSG_CAP b { s with sched := rest } := by
  rw [step_move (.host (commandPins w)) s rest hs]
  change commandStep w { s with sched := rest } = _
  rw [commandStep, hw]
  exact whenHostOwns_owned _ _ hown

/-- The message held does not depend on the schedule. -/
theorem HoldsMessage.withSched {s : State} {S : List Byte} (hm : HoldsMessage s S) (es : List Event) :
    HoldsMessage { s with sched := es } S := hm

/-- The `LDB`s of `S`, in whatever words they are presented, append `S` to the message held, if it fits (R34 (b), R81). -/
theorem runSteps_load (w : Byte → CmdWord) (hw : ∀ b, decodeCommand (w b) = .ok (.ldb b)) {s : State} {M S : List Byte}
    {rest : List Event} (hown : s.st = .idle ∨ s.st = .done) (hm : HoldsMessage s M)
    (hcap : M.length + S.length ≤ Config.MSG_CAP)
    (hs : s.sched = S.map (fun b => .host (commandPins (w b))) ++ rest) :
    ∃ t, runSteps S.length s = .next t ∧ HoldsMessage t (M ++ S) ∧ (t.st = .idle ∨ t.st = .done) ∧ t.h = s.h ∧
      t.ecause = s.ecause ∧ t.sched = rest := by
  induction S generalizing s M with
  | nil => exact ⟨s, rfl, (List.append_nil M).symm ▸ hm, hown, rfl, rfl, hs⟩
  | cons b S ih =>
    simp only [List.length_cons] at hcap
    rw [List.map_cons, List.cons_append] at hs
    generalize hes : S.map _ ++ rest = es at hs
    have hlt : s.len < Config.MSG_CAP := by rw [hm.1]; omega
    have hstep := step_ldb hs (hw b) hown
    rw [appendByte, if_neg hlt.ne, memWrite_of_lt _ _ _ _ hlt] at hstep
    obtain ⟨t, hrun, hload⟩ := ih (M := M ++ [b]) (.inl rfl) ((hm.withSched es).append b) (by simp; omega) hes.symm
    rw [List.append_assoc] at hload
    exact ⟨t, (runSteps_succ _ hstep).trans hrun, hload⟩

/-- Settles O55: the bytes of `S` are appended to the empty message one by one, and the `LDB` after them finds the buffer
full if `S` fills it. -/
theorem loadingDefinesTheMessage : Obligations.LoadingDefinesTheMessage := fun s S b hown hlen hcap hs => by
  rw [List.map_append] at hs
  have hempty : HoldsMessage s [] := ⟨hlen, nofun⟩
  obtain ⟨t, hrun, hm, hst, hh, hcause, hsched⟩ := runSteps_load _ decodeCommand_ldb hown hempty (by simpa using hcap) hs
  refine ⟨⟨t, hrun, hm, hst, hh, hcause⟩, fun hfull => ?_⟩
  have hstep := step_ldb hsched (decodeCommand_ldb b) hst
  rw [appendByte, if_pos (hm.1.trans hfull)] at hstep
  exact ⟨_, (runSteps_add 1 hrun).trans (runSteps_succ 0 hstep), hm, rfl, rfl⟩

end Sys2Proof.Machine
end

section
/-! SUPPORT. The statements of 30_encoding.md: encoder and decoder are inverse to each other, the rows of the command
map and of the select word, the illegal words, and the words of the assembler's lines. -/

namespace Sys2Proof.Machine

/-! ### The micro-operations -/

/-- The select word selects one of the four micro-operations, whatever its bits (R44). -/
theorem decodeSelect_mem : ∀ w : SelWord, decodeSelect w ∈ [.fold, .next, .fin, .hold] := by decide

/-- The instructions of format `SEQ` are the four micro-operations (R44). -/
theorem wellFormedIn_seq_iff (i : Instr) : i.wellFormedIn .seq = true ↔ i ∈ [.fold, .next, .fin, .hold] := by
  cases i <;> simp [Instr.wellFormedIn, Instr.format]

/-- A micro-operation is selected by the select words of its row (R44). -/
theorem decodeSelect_eq_iff_admits :
    ∀ i ∈ [Instr.fold, .next, .fin, .hold], ∀ w, decodeSelect w = i ↔ (opRow i).admits (.sel w) = true := by
  decide

theorem decode_sel_eq_ok_iff (i : Instr) (w : SelWord) :
    decode (.sel w) = .ok i ↔ i.wellFormedIn .seq = true ∧ (opRow i).admits (.sel w) = true := by
  rw [wellFormedIn_seq_iff]
  constructor
  · rintro ⟨⟩
    exact ⟨decodeSelect_mem w, (decodeSelect_eq_iff_admits _ (decodeSelect_mem w) w).1 rfl⟩
  · rintro ⟨hi, hw⟩
    exact congrArg _ ((decodeSelect_eq_iff_admits i hi w).2 hw)

/-! ### Decoding an encoding -/

theorem decode_encode (i : Instr) : decode (encode i) = .ok i := by
  cases i with
  | ldb b => simp [encode, decode, decodeCommand]
  | nop | rst | clrm | go | fold | next | fin | hold => rfl

/-- Settles O1: `decode_encode`, the one word of each command, and the rows of the select word. -/
theorem encodeThenDecodeGivesTheInstruction : Obligations.EncodeThenDecodeGivesTheInstruction := fun i =>
  ⟨decode_encode i, fun _ => encode_of_decodeCommand, decode_sel_eq_ok_iff i⟩

/-- The words of a command are its encoding alone, and no word of `cmd_i` is a micro-operation (R41). -/
theorem decodeCommand_eq_ok_iff {w : CmdWord} {i : Instr} : decodeCommand w = .ok i ↔ encode i = .cmd w := by
  refine ⟨encode_of_decodeCommand, fun h => ?_⟩
  rw [← decode_encode i, h, decode]

/-! ### The rows of the command map -/

theorem cmdWord_inj {op op' : BitVec 3} {b b' : Byte} : cmdWord op b = cmdWord op' b' ↔ op = op' ∧ b = b' :=
  ⟨fun h => ⟨by simpa using congrArg opField h, by simpa using congrArg imm8Field h⟩, by rintro ⟨rfl, rfl⟩; rfl⟩

theorem cmdWord_and (op op' : BitVec 3) (b b' : Byte) :
    cmdWord op b &&& cmdWord op' b' = cmdWord (op &&& op') (b &&& b') :=
  BitVec.and_append

/-- The mask `0x7FF` keeps the whole word (R41). -/
theorem and_wordMask (w : CmdWord) : w &&& 0x7FF#11 = w := BitVec.and_allOnes

/-- The mask `0x700` keeps the field `op` (R39, R41). -/
theorem and_opMask (w : CmdWord) : w &&& 0x700#11 = cmdWord (opField w) 0#8 :=
  calc w &&& 0x700#11
    _ = cmdWord (opField w) (imm8Field w) &&& cmdWord 0b111#3 0#8 := by rw [cmdWord_fields]; rfl
    _ = cmdWord (opField w &&& BitVec.allOnes 3) (imm8Field w &&& 0#8) := cmdWord_and _ _ _ _
    _ = cmdWord (opField w) 0#8 := by rw [BitVec.and_allOnes, BitVec.and_zero]

/-- A command without operand has the one word of its row, whose mask is `0x7FF` (R41). -/
theorem decodeCommand_eq_ok_iff_and {w m : CmdWord} {i : Instr} (h : encode i = .cmd m) :
    decodeCommand w = .ok i ↔ w &&& 0x7FF#11 = m := by
  rw [decodeCommand_eq_ok_iff, h, FetchWord.cmd.injEq, and_wordMask, eq_comm]

/-- The words of `LDB` are those whose field `op` is `011`, and its byte is the other field (R40, R41). -/
theorem decodeCommand_eq_ldb_iff_and (w : CmdWord) (b : Byte) :
    decodeCommand w = .ok (.ldb b) ↔ w &&& 0x700#11 = 0x300#11 ∧ b = imm8Field w :=
  calc decodeCommand w = .ok (.ldb b)
    _ ↔ cmdWord 0b011#3 b = cmdWord (opField w) (imm8Field w) := by
      rw [decodeCommand_eq_ok_iff, encode, FetchWord.cmd.injEq, cmdWord_fields]
    _ ↔ cmdWord (opField w) 0#8 = cmdWord 0b011#3 0#8 ∧ b = imm8Field w := by
      simp [cmdWord_inj, eq_comm]
    _ ↔ w &&& 0x700#11 = 0x300#11 ∧ b = imm8Field w := by rw [and_opMask]; rfl

/-! ### Legal and illegal words -/

/-- The legal words: those of `LDB`, and those of another command's `op` with a zero immediate (R41, R42). -/
theorem isOk_decodeCommand_iff (w : CmdWord) :
    (decodeCommand w).isOk = true ↔
      opField w = 0b011#3 ∨ (commandOfOp (opField w)).isSome ∧ imm8Field w = 0#8 := by
  unfold decodeCommand
  split
  next hop => simp [hop, Except.isOk, Except.toBool]
  next hop =>
    cases commandOfOp (opField w) with
    | none => simp [hop, Except.isOk, Except.toBool]
    | some i => by_cases himm : imm8Field w = 0#8 <;> simp [hop, himm, Except.isOk, Except.toBool]

theorem exists_decodeCommand_eq_error_iff (w : CmdWord) :
    (∃ e, decodeCommand w = .error e) ↔ ¬ (decodeCommand w).isOk = true := by
  cases decodeCommand w <;> simp [Except.isOk, Except.toBool]

/-- The commands without operand by the number of their `op` (R41). -/
theorem isSome_commandOfOp_iff : ∀ op, (commandOfOp op).isSome ↔ op.toNat ∈ [0, 1, 2, 4] := by decide

/-- The two groups of illegal words (R42). -/
theorem decodeCommand_illegal_iff (w : CmdWord) : (∃ e, decodeCommand w = .error e) ↔
    5 ≤ (opField w).toNat ∨ (opField w).toNat ∈ [0, 1, 2, 4] ∧ (imm8Field w).toNat ≠ 0 := by
  have hop := (opField w).isLt
  rw [exists_decodeCommand_eq_error_iff, isOk_decodeCommand_iff, isSome_commandOfOp_iff, ← BitVec.toNat_inj,
    ← BitVec.toNat_inj]
  simp only [List.mem_cons, List.not_mem_nil, or_false, BitVec.toNat_ofNat]
  omega

/-! ### Counting words -/

/-- Numbers below `m * n` are counted block by block. -/
theorem length_filter_range_mul (p : Nat → Bool) (m n : Nat) :
    ((List.range (m * n)).filter p).length =
      ∑ i ∈ Finset.range m, ((List.range n).filter fun k => p (i * n + k)).length := by
  induction m with
  | zero => simp
  | succ m ih =>
    rw [Nat.succ_mul, List.range_add, List.filter_append, List.length_append, ih, Finset.sum_range_succ,
      List.filter_map, List.length_map]
    rfl

theorem ofNat_eq_cmdWord (op : Nat) {b : Nat} (hb : b < 256) :
    BitVec.ofNat 11 (op * 256 + b) = cmdWord (BitVec.ofNat 3 op) (BitVec.ofNat 8 b) := by
  apply BitVec.eq_of_toNat_eq
  rw [cmdWord, BitVec.toNat_append, ← Nat.shiftLeft_add_eq_or_of_lt (BitVec.isLt _)]
  simp
  omega

/-- The words with a property, counted opcode by opcode. -/
theorem length_filter_words (p : CmdWord → Bool) :
    ((List.range 2048).filter fun n => p (BitVec.ofNat 11 n)).length =
      ∑ op ∈ Finset.range 8,
        ((List.range 256).filter fun b => p (cmdWord (BitVec.ofNat 3 op) (BitVec.ofNat 8 b))).length := by
  refine (length_filter_range_mul (fun n => p (BitVec.ofNat 11 n)) 8 256).trans (Finset.sum_congr rfl fun op _ => ?_)
  rw [List.filter_congr fun b hb => by rw [ofNat_eq_cmdWord op (List.mem_range.1 hb)]]

/-- Of the 256 words of an opcode all are legal, one is, or none is (R41, R42). -/
theorem length_filter_legal (op : BitVec 3) :
    ((List.range 256).filter fun b => (decodeCommand (cmdWord op (BitVec.ofNat 8 b))).isOk).length =
      if op = 0b011#3 then 256 else if (commandOfOp op).isSome then 1 else 0 := by
  have legal : ∀ b ∈ List.range 256, (decodeCommand (cmdWord op (BitVec.ofNat 8 b))).isOk =
      decide (op = 0b011#3 ∨ (commandOfOp op).isSome ∧ b = 0) := fun b hb => by
    have hzero : BitVec.ofNat 8 b = 0#8 ↔ b = 0 := by
      have := List.mem_range.1 hb
      rw [← BitVec.toNat_inj, BitVec.toNat_ofNat, BitVec.toNat_ofNat]
      omega
    rw [Bool.eq_iff_iff, isOk_decodeCommand_iff, opField_cmdWord, imm8Field_cmdWord, hzero, decide_eq_true_eq]
  rw [List.filter_congr legal]
  by_cases hop : op = 0b011#3
  · simp [hop]
  · cases (commandOfOp op).isSome
    · simp [hop]
    · have hcount : (List.range 256).count 0 = 1 := List.count_eq_one_of_mem List.nodup_range (by simp)
      rw [List.count, List.countP_eq_length_filter] at hcount
      simpa [hop, beq_eq_decide] using hcount

theorem length_filter_isOk :
    ((List.range 2048).filter fun n => (decodeCommand (BitVec.ofNat 11 n)).isOk).length = 260 := by
  rw [length_filter_words fun w => (decodeCommand w).isOk]
  simp only [length_filter_legal]
  rfl

theorem length_filter_not_isOk :
    ((List.range 2048).filter fun n => !(decodeCommand (BitVec.ofNat 11 n)).isOk).length = 1788 := by
  have hsum := List.length_eq_length_filter_add (l := List.range 2048) fun n => (decodeCommand (BitVec.ofNat 11 n)).isOk
  rw [length_filter_isOk, List.length_range] at hsum
  omega

/-- Three opcodes name no command, with 256 words each (R42 (a)). -/
theorem length_filter_reserved :
    ((List.range 2048).filter fun n => decide (5 ≤ (opField (BitVec.ofNat 11 n)).toNat)).length = 768 := by
  rw [length_filter_words fun w => decide (5 ≤ (opField w).toNat)]
  simp [Finset.sum_range_succ]

/-- Settles O2: each row from the command's one word, the format from `decodeCommand_isCommand`, the count opcode by
opcode. -/
theorem commandWordsAreTheRowsOfTheMap : Obligations.CommandWordsAreTheRowsOfTheMap := by
  refine ⟨fun w => ⟨decodeCommand_eq_ok_iff_and rfl, decodeCommand_eq_ok_iff_and rfl, decodeCommand_eq_ok_iff_and rfl,
    decodeCommand_eq_ldb_iff_and w, decodeCommand_eq_ok_iff_and rfl⟩, fun w i h => ?_, length_filter_isOk⟩
  rcases decodeCommand_isCommand w i h with rfl | rfl | rfl | ⟨b, rfl⟩ | rfl <;> rfl

/-! ### Illegal words in a step -/

/-- A step whose head of the schedule is a command transaction is that transaction (R9, R77). -/
theorem step_command {s : State} {w : CmdWord} {rest : List Event} (hs : s.sched = .host (commandPins w) :: rest) :
    step s = commandStep w { s with sched := rest } :=
  step_move (.host (commandPins w)) s rest hs

/-- An illegal word raises `E_ILLCMD` or is ignored (R42, R77). -/
theorem step_illegal {s : State} {w : CmdWord} {e : DecodeError} {rest : List Event} (hw : decodeCommand w = .error e)
    (hs : s.sched = .host (commandPins w) :: rest) : step s = .next (illegalCommand { s with sched := rest }) := by
  rw [step_command hs, commandStep, hw]

/-- Settles O3: the two groups from the legal words, the numbers opcode by opcode, and the step by the status. -/
theorem illegalWordsRaiseIllCmd : Obligations.IllegalWordsRaiseIllCmd :=
  ⟨decodeCommand_illegal_iff, length_filter_not_isOk, length_filter_reserved, fun s _ _ rest hw hs =>
    ⟨fun hst => (step_illegal hw hs).trans (congrArg _ (illegalCommand_raises { s with sched := rest } hst)),
     fun hst => (step_illegal hw hs).trans (congrArg _ (illegalCommand_fault { s with sched := rest } hst))⟩⟩

/-! ### The select word of a state -/

/-- The bits of the select word, as `{busy, more, lastp}` concatenates them (R44). -/
theorem selectWord_getLsbD (s : State) :
    s.selectWord.getLsbD 2 = s.busy ∧ s.selectWord.getLsbD 1 = s.more ∧ s.selectWord.getLsbD 0 = s.lastp := by
  have bits : ∀ a b c : Bool, (BitVec.ofBool a ++ BitVec.ofBool b ++ BitVec.ofBool c).getLsbD 2 = a ∧
      (BitVec.ofBool a ++ BitVec.ofBool b ++ BitVec.ofBool c).getLsbD 1 = b ∧
      (BitVec.ofBool a ++ BitVec.ofBool b ++ BitVec.ofBool c).getLsbD 0 = c := by decide
  exact bits s.busy s.more s.lastp

/-- A row of the select word admits the words that agree with its match under its mask (R44). -/
theorem admits_sel_iff (mask value : Nat) (hm : mask < 8) (hv : value < 8) (w : SelWord) :
    (OpRow.mk .seq mask value).admits (.sel w) = true ↔ w &&& BitVec.ofNat 3 mask = BitVec.ofNat 3 value := by
  rw [← BitVec.toNat_inj, BitVec.toNat_and, BitVec.toNat_ofNat, BitVec.toNat_ofNat, Nat.mod_eq_of_lt hm,
    Nat.mod_eq_of_lt hv]
  simp [OpRow.admits]

theorem decodeSelect_eq_iff_and {i : Instr} {mask value : Nat} (hi : i ∈ [Instr.fold, .next, .fin, .hold])
    (hrow : opRow i = ⟨.seq, mask, value⟩) (hm : mask < 8) (hv : value < 8) (w : SelWord) :
    decodeSelect w = i ↔ w &&& BitVec.ofNat 3 mask = BitVec.ofNat 3 value := by
  rw [decodeSelect_eq_iff_admits i hi, hrow, admits_sel_iff mask value hm hv]

/-- Settles O4: the three bits as concatenated, and the rows over all select words. -/
theorem selectWordRowsSelect : Obligations.SelectWordRowsSelect := fun s => by
  obtain ⟨hbusy, hmore, hlastp⟩ := selectWord_getLsbD s
  rw [hbusy, hmore, hlastp]
  refine ⟨s.busy_eq_true, by simp [State.more], by simp [State.lastp], ?_, ?_, ?_, ?_, decodeSelect_mem _⟩
  all_goals exact decodeSelect_eq_iff_and (by simp) rfl (by decide) (by decide) _

/-- Settles O5: the words are closed, and the decoder computes. -/
theorem writtenOutWordsDecode : Obligations.WrittenOutWordsDecode := by
  unfold Obligations.WrittenOutWordsDecode
  decide

/-! ### The lines of a host program -/

theorem assemble_of_wellFormed {l : AsmLine} (h : l.wellFormed = true) : l.assemble = .ok l.expand := if_pos h

/-- The word of `ldb b` is `0x300 + b`, without reduction (R48, U2). -/
theorem ldbWord_toNat {b : Nat} (hb : b ≤ 255) : (ldbWord b).toNat = 0x300 + b := by
  rw [ldbWord, BitVec.toNat_ofNat]
  omega

theorem ldbWord_eq_cmdWord {b : Nat} (hb : b ≤ 255) : ldbWord b = cmdWord 0b011#3 (BitVec.ofNat 8 b) :=
  ofNat_eq_cmdWord 3 (by omega)

/-- Settles O58: each line is well formed or not by its operand, and the word of `ldb b` is the encoding of `LDB b`. -/
theorem assemblerLinesGiveTheirWords : Obligations.AssemblerLinesGiveTheirWords := by
  refine ⟨rfl, rfl, rfl, rfl, fun b hb => ⟨ldbWord b, assemble_of_wellFormed (decide_eq_true hb), ldbWord_toNat hb, ?_⟩,
    fun b hb => if_neg (by simpa [AsmLine.wellFormed, asmByteOk] using hb), fun w => ?_⟩
  · rw [decodeCommand_eq_ok_iff, ldbWord_eq_cmdWord hb, encode]
  · have hw : w.toNat ≤ 2047 := Nat.le_of_lt_succ w.isLt
    rw [assemble_of_wellFormed (l := .word w.toNat) (decide_eq_true hw), AsmLine.expand, BitVec.ofNat_toNat,
      BitVec.setWidth_eq]

/-- Settles O59: the bytes in range make `msg` and `digest` well formed, and the expansions are as written. -/
theorem pseudoInstructionsExpand : Obligations.PseudoInstructionsExpand := fun bs hbs => by
  have hall : bs.all asmByteOk = true := List.all_eq_true.2 fun b hb => decide_eq_true (hbs b hb)
  refine ⟨assemble_of_wellFormed (l := .msg bs) hall, ?_, assemble_of_wellFormed (l := .digest bs) hall, fun w => ?_⟩
  · simp [AsmLine.expand]
  · simp [AsmLine.expand]

end Sys2Proof.Machine
end

section
/-! SUPPORT. The statements of 40_digest_engine.md: the fold and the digest as arithmetic modulo 255, the micro-operations
one by one, the model's stops, and runs that nothing but idle moves of the host disturbs. -/

namespace Sys2Proof.Machine

/-! ### The fold as arithmetic modulo 255 -/

/-- Settles O40: the sum is below `2 ^ 9` and the product below `2 ^ 14`, so neither width cuts anything off. -/
theorem foldIsTheExactRemainder : Obligations.FoldIsTheExactRemainder := fun prev b c => by
  have hsum : prev.toNat + b.toNat ≤ 510 := by omega
  have hprod : (prev.toNat + b.toNat) * c.toNat ≤ 510 * 31 := Nat.mul_le_mul hsum (by omega)
  have hsum9 : (prev.zeroExtend 9 + b.zeroExtend 9).toNat = prev.toNat + b.toNat := by
    rw [BitVec.toNat_add, BitVec.toNat_setWidth, BitVec.toNat_setWidth]
    omega
  have hprod14 : ((prev.zeroExtend 9 + b.zeroExtend 9).zeroExtend 14 * c.zeroExtend 14).toNat =
      (prev.toNat + b.toNat) * c.toNat := by
    rw [BitVec.toNat_mul, BitVec.toNat_setWidth, BitVec.toNat_setWidth, hsum9,
      Nat.mod_eq_of_lt (show prev.toNat + b.toNat < 2 ^ 14 by omega),
      Nat.mod_eq_of_lt (show c.toNat < 2 ^ 14 by omega), Nat.mod_eq_of_lt (by omega)]
  rw [fold, hprod14, BitVec.toNat_ofNat, Config.MOD]
  omega

/-- The fold as a byte: the remainder of natural numbers (R54). -/
theorem fold_eq_ofNat (prev b : Byte) (c : Coef) :
    fold prev b c = BitVec.ofNat 8 (((prev.toNat + b.toNat) * c.toNat) % 255) := by
  rw [← foldIsTheExactRemainder prev b c, BitVec.ofNat_toNat, BitVec.setWidth_eq]

/-- The fold reads the sum of its operands modulo 255 only. -/
theorem fold_eq_of_modEq {prev b : Byte} {m : Nat} (c : Coef) (h : prev.toNat + b.toNat ≡ m [MOD 255]) :
    (fold prev b c).toNat = (m * c.toNat) % 255 :=
  (foldIsTheExactRemainder prev b c).trans (h.mul_right c.toNat)

/-- Settles O41: one folding leaves at most 255 + 37, a second one at most 255. -/
theorem reductionByFoldingIsTheRemainder : Obligations.ReductionByFoldingIsTheRemainder := fun t ht => by
  simp only [reduceByFolding]
  split
  · split <;> omega
  · split <;> omega

/-- The coefficients as R17 lists them. -/
theorem coefAt_toNat : ∀ i : Fin 8, (coefAt i).toNat = [2, 3, 5, 7, 11, 13, 17, 19].getD i.val 0 := by decide

/-! ### The closed form of the digest -/

/-- The multipliers as R65 lists them. -/
theorem multiplier_eq_getD :
    ∀ i : Fin 8, multiplier i.val = [2, 9, 50, 102, 113, 207, 221, 138].getD i.val 0 := by decide

/-- The recurrence of the multipliers over the coefficients of the ROM (R65). -/
theorem multiplier_succ (i : Nat) (hi : i + 1 < 8) :
    multiplier (i + 1) = ((multiplier i + 1) * (coefAt ⟨i + 1, hi⟩).toNat) % 255 := by
  have hcoef : ∀ j : Fin 8, COEF.toList.getD j.val 0#5 = coefAt j := by decide
  rw [multiplier, ← hcoef]

/-- The digest of a message that ends in `b` is, position by position, a multiple of `b` modulo 255 (R65). -/
theorem digestAcc_append_toNat (S : List Byte) (b : Byte) (i : Nat) (hi : i < 8) :
    ((digestAcc (S ++ [b]))[i]).toNat = (multiplier i * b.toNat) % 255 := by
  have hget : ∀ i (hi : i < 8), (digestAcc (S ++ [b]))[i] =
      fold (prevAcc (digestAcc (S ++ [b])) ⟨i, hi⟩) b (coefAt ⟨i, hi⟩) := fun i hi => digestAcc_get_append S b ⟨i, hi⟩
  induction i with
  | zero =>
    have hsum : (prevAcc (digestAcc (S ++ [b])) ⟨0, hi⟩).toNat + b.toNat ≡ b.toNat [MOD 255] := by
      rw [show prevAcc (digestAcc (S ++ [b])) ⟨0, hi⟩ = 0#8 from rfl, BitVec.toNat_zero, Nat.zero_add]
    rw [hget, fold_eq_of_modEq _ hsum, Nat.mul_comm]
    rfl
  | succ i ih =>
    have hprev : (prevAcc (digestAcc (S ++ [b])) ⟨i + 1, hi⟩).toNat = (multiplier i * b.toNat) % 255 := ih (by omega)
    have hsum : (multiplier i * b.toNat) % 255 + b.toNat ≡ (multiplier i + 1) * b.toNat [MOD 255] := by
      rw [Nat.add_mul, Nat.one_mul]
      exact (Nat.mod_modEq _ _).add_right _
    rw [hget, fold_eq_of_modEq _ (hprev ▸ hsum), multiplier_succ i hi, Nat.mod_mul_mod, Nat.mul_right_comm]

/-- The digest of a non-empty message in its last byte (R65). -/
theorem digestAcc_toNat {S : List Byte} (hS : S ≠ []) (i : Fin 8) :
    (digestAcc S)[i].toNat = (multiplier i.val * (S.getLast hS).toNat) % 255 := by
  have h := digestAcc_append_toNat S.dropLast (S.getLast hS) i.val i.isLt
  rwa [List.dropLast_append_getLast] at h

/-- Settles O43: the closed form reads the last byte only. -/
theorem digestDependsOnTheLastByteOnly : Obligations.DigestDependsOnTheLastByteOnly := fun S hS =>
  accs_ext _ _ fun i => BitVec.eq_of_toNat_eq <| by
    rw [digestAcc_toNat hS, digestAcc_toNat (List.cons_ne_nil _ _), List.getLast_singleton]

/-- No accumulator of a digest is 255 (R12, R65 (e)). -/
theorem digestAcc_lt (S : List Byte) (i : Fin 8) : (digestAcc S)[i].toNat < 255 := by
  by_cases hS : S = []
  · rw [hS, digestAcc_nil, Fin.getElem_fin, zeroAccs_get i.val i.isLt]
    decide
  · rw [digestAcc_toNat hS]
    exact Nat.mod_lt _ (by decide)

/-- Single bytes have the same digest iff they agree modulo 255 (R65 (b)); accumulator 0 alone tells them apart. -/
theorem digestAcc_singleton_inj (b c : Byte) : digestAcc [b] = digestAcc [c] ↔ b.toNat % 255 = c.toNat % 255 := by
  have hform : ∀ (x : Byte) (i : Fin 8), (digestAcc [x])[i].toNat = (multiplier i.val * x.toNat) % 255 := fun x =>
    digestAcc_toNat (List.cons_ne_nil x [])
  constructor
  · intro h
    have h0 : (2 * b.toNat) % 255 = (2 * c.toNat) % 255 := by
      have hb := hform b 0
      rw [h, hform c 0] at hb
      exact hb.symm
    omega
  · intro h
    refine accs_ext _ _ fun i => BitVec.eq_of_toNat_eq ?_
    rw [hform, hform]
    exact Nat.ModEq.mul_left (multiplier i.val) h

/-- Accumulators 3 and 6 are multiples of 51 and 17, as their multipliers are (R65 (c), (d)). -/
theorem digestAcc_dvd (S : List Byte) : 51 ∣ (digestAcc S)[3].toNat ∧ 17 ∣ (digestAcc S)[6].toNat := by
  by_cases hS : S = []
  · subst hS; decide
  · have h3 : (digestAcc S)[3].toNat = (102 * (S.getLast hS).toNat) % 255 := digestAcc_toNat hS 3
    have h6 : (digestAcc S)[6].toNat = (221 * (S.getLast hS).toNat) % 255 := digestAcc_toNat hS 6
    omega

/-- Two characters `f` are the characters of 255 only (R45, R46). -/
theorem eq_of_hexchars_ff {v : Byte} (hhigh : hexchar (v.extractLsb' 4 4) = 0x66#8)
    (hlow : hexchar (v.extractLsb' 0 4) = 0x66#8) : v = 0xFF#8 := by
  have hf : ∀ n, hexchar n = 0x66#8 → n = 15#4 := by decide
  have hv : v.extractLsb' 4 4 ++ v.extractLsb' 0 4 = v := BitVec.extractLsb'_append_extractLsb' (w := 4) (len := 4)
  rw [← hv, hf _ hhigh, hf _ hlow]
  rfl

/-- No pair of characters of a digest string is `ff` (R65 (e), R75). -/
theorem digestHex_not_ff (S : List Byte) (i : Fin 8) :
    ¬ ((digestHex S)[2 * i.val]? = some 0x66#8 ∧ (digestHex S)[2 * i.val + 1]? = some 0x66#8) := by
  have hval : ((digestAcc S).toList.map BitVec.toNat)[i.val]? = some (digestAcc S)[i].toNat := by simp
  obtain ⟨hhigh, hlow⟩ := hexEnc_getElem? hval
  rw [mask8_toNat] at hhigh hlow
  rintro ⟨h1, h2⟩
  have hff := eq_of_hexchars_ff (Option.some.inj (hhigh.symm.trans h1)) (Option.some.inj (hlow.symm.trans h2))
  have hlt := digestAcc_lt S i
  rw [hff] at hlt
  exact absurd hlt (by decide)

/-- Settles O44: the closed form, and the consequences read off it. -/
theorem digestIsTheMultiplierForm : Obligations.DigestIsTheMultiplierForm := by
  refine ⟨by decide, ⟨rfl, fun i => ?_⟩, fun S hS i => ?_, ⟨by decide, by decide, rfl⟩, digestAcc_singleton_inj,
    digestAcc_dvd, fun S i => ⟨fun hff => ?_, digestHex_not_ff S i⟩⟩
  · rw [multiplier_succ i.val (by omega), coefAt_toNat]
  · rw [← multiplier_eq_getD]
    exact digestAcc_toNat hS i
  · have hlt := digestAcc_lt S i
    rw [hff] at hlt
    exact absurd hlt (by decide)

/-! ### The passes from any accumulators, and the byte-major program -/

/-- If the accumulators below `i` agree, then after pass `i` over a non-empty message those up to `i` agree (R52). -/
theorem pass_agree {S : List Byte} (hS : S ≠ []) {h h' : Accs} (i : Fin 8) (hh : ∀ j : Fin 8, j < i → h[j] = h'[j])
    (j : Fin 8) (hj : j ≤ i) : (pass S h i)[j] = (pass S h' i)[j] := by
  obtain ⟨S, b, rfl⟩ := (List.eq_nil_or_concat' S).resolve_left hS
  rw [Fin.getElem_fin, Fin.getElem_fin]
  rcases eq_or_lt_of_le hj with rfl | hlt
  · rw [pass_get_self, pass_get_self, prevAcc_congr h h' j hh]
  · have hne : j.val ≠ i.val := Fin.val_ne_of_ne hlt.ne
    rw [pass_get_other _ _ _ _ j.isLt hne, pass_get_other _ _ _ _ j.isLt hne]
    exact hh j hlt

theorem positions_take_succ : ∀ i : Fin 8, positions.take (i.val + 1) = positions.take i.val ++ [i] := by decide

/-- After the first `n` passes over a non-empty message the first `n` accumulators do not depend on those before. -/
theorem foldl_pass_take_agree {S : List Byte} (hS : S ≠ []) (h h' : Accs) {n : Nat} (hn : n ≤ 8) (j : Fin 8)
    (hj : j.val < n) : ((positions.take n).foldl (pass S) h)[j] = ((positions.take n).foldl (pass S) h')[j] := by
  induction n generalizing j with
  | zero => exact absurd hj (Nat.not_lt_zero _)
  | succ n ih =>
    rw [positions_take_succ ⟨n, hn⟩, List.foldl_append, List.foldl_append]
    exact pass_agree hS ⟨n, hn⟩ (fun j hj => ih (by omega) j hj) j (Nat.le_of_lt_succ hj)

/-- The eight passes over a non-empty message give its digest from any accumulators (R52). -/
theorem foldl_pass_eq_digestAcc {S : List Byte} (hS : S ≠ []) (h : Accs) : positions.foldl (pass S) h = digestAcc S :=
  accs_ext _ _ fun j => foldl_pass_take_agree hS h zeroAccs le_rfl j j.isLt

/-- Settles O42: the empty digest is the zero-fill, and each pass overwrites its accumulator before it is read. -/
theorem emptyMessageDigestsToZero : Obligations.EmptyMessageDigestsToZero :=
  ⟨digestAcc_nil, by decide, fun _ h hS => foldl_pass_eq_digestAcc hS h⟩

/-- Settles O45: the last byte's eight iterations are the eight passes over that byte alone, from whatever accumulators
the bytes before it left. -/
theorem byteMajorGivesTheSameDigest : Obligations.ByteMajorGivesTheSameDigest := fun S => by
  rcases List.eq_nil_or_concat' S with rfl | ⟨S, b, rfl⟩
  · rfl
  · rw [digestByteMajor, List.foldl_append, digestDependsOnTheLastByteOnly _ (by simp), List.getLast_append_singleton,
      List.foldl_cons, List.foldl_nil]
    exact foldl_pass_eq_digestAcc (List.cons_ne_nil b []) _

/-! ### When each micro-operation is selected -/

/-- In `BUSY`, the selection of R57. -/
theorem decodeSelect_of_busy {s : State} (hb : s.st = .busy) :
    decodeSelect s.selectWord = if s.k < s.len then .fold else if s.p.val < 7 then .next else .fin := by
  rw [decodeSelect_selectWord, if_pos hb]
  congr 1
  by_cases hp : s.p = 7
  · rw [if_pos hp, hp]
    rfl
  · rw [if_neg hp, if_pos (by omega)]

theorem decodeSelect_eq_fold_iff (s : State) : decodeSelect s.selectWord = .fold ↔ s.st = .busy ∧ s.k < s.len := by
  rw [decodeSelect_selectWord]
  split_ifs <;> simp [*]

theorem decodeSelect_eq_next_iff (s : State) :
    decodeSelect s.selectWord = .next ↔ s.st = .busy ∧ s.len ≤ s.k ∧ s.p ≠ 7 := by
  rw [decodeSelect_selectWord, ← not_lt]
  split_ifs <;> simp [*]

theorem decodeSelect_eq_fin_iff (s : State) :
    decodeSelect s.selectWord = .fin ↔ s.st = .busy ∧ s.len ≤ s.k ∧ s.p = 7 := by
  rw [decodeSelect_selectWord, ← not_lt]
  split_ifs <;> simp [*]

theorem decodeSelect_eq_hold_iff (s : State) : decodeSelect s.selectWord = .hold ↔ s.st ≠ .busy := by
  rw [decodeSelect_selectWord]
  split_ifs <;> simp [*]

/-! ### The micro-operations where they are selected -/

theorem byteOperand_of_lt {s : State} (hk : s.k < s.len) : s.byteOperand = s.msg.read s.k := memRead_of_lt s s.k hk

theorem exec_fold {s : State} {b : Byte} (hb : s.st = .busy) (hk : s.k < s.len) (hr : s.msg.read s.k = some b) :
    exec .fold s = .next (writeFolded (fold (prevAcc s.h s.p) b (coefAt s.p)) s) := by
  rw [exec, execFold, whenSelected_of _ _ _ ((decodeSelect_eq_fold_iff s).2 ⟨hb, hk⟩), foldByte, byteOperand_of_lt hk, hr]
  rfl

theorem exec_next {s : State} (hb : s.st = .busy) (hk : s.len ≤ s.k) (hp : s.p ≠ 7) :
    exec .next s = .next (nextPass s) :=
  whenSelected_of .next s (fun s => .next (nextPass s)) ((decodeSelect_eq_next_iff s).2 ⟨hb, hk, hp⟩)

theorem exec_fin {s : State} (hb : s.st = .busy) (hk : s.len ≤ s.k) (hp : s.p = 7) :
    exec .fin s = .next (finishRun s) :=
  whenSelected_of .fin s (fun s => .next (finishRun s)) ((decodeSelect_eq_fin_iff s).2 ⟨hb, hk, hp⟩)

/-- Settles O19: `HOLD` is what is selected outside `BUSY`. -/
theorem holdLeavesTheState : Obligations.HoldLeavesTheState := fun s hb =>
  whenSelected_of _ _ _ ((decodeSelect_eq_hold_iff s).2 hb)

/-- `prev` as a number: 0 in pass 0, `H[P-1]` after it (R59). -/
theorem prevAcc_toNat (h : Accs) (i : Fin 8) :
    (prevAcc h i).toNat = if i.val = 0 then 0 else h[i.val - 1].toNat := by
  unfold prevAcc
  split <;> rfl

/-- Bytes 0 and 255 fold alike, and a sum that is a multiple of 255 folds to 0 (R59, corner cases (iv) and (v)). -/
theorem fold_corner_cases (prev b : Byte) (c : Coef) :
    fold prev 0#8 c = fold prev 255#8 c ∧ (255 ∣ prev.toNat + b.toNat → fold prev b c = 0#8) := by
  constructor
  · apply BitVec.eq_of_toNat_eq
    rw [foldIsTheExactRemainder, foldIsTheExactRemainder]
    have hsum : prev.toNat + 0 ≡ prev.toNat + 255 [MOD 255] := by simp [Nat.ModEq]
    exact hsum.mul_right c.toNat
  · intro hdvd
    rw [fold_eq_ofNat, Nat.mod_eq_zero_of_dvd (hdvd.mul_right c.toNat)]

/-- Settles O16: the fold is the exact remainder, over the operands as R59 lists them. -/
theorem foldWritesAccumulatorP : Obligations.FoldWritesAccumulatorP := by
  refine ⟨decodeSelect_eq_fold_iff, fun s b hb hk hr => ?_, fold_corner_cases⟩
  rw [exec_fold hb hk hr, fold_eq_ofNat, prevAcc_toNat, coefAt_toNat]
  rfl

/-- Settles O17: with `K <= LEN` the selection's `K >= LEN` is `K = LEN`. -/
theorem nextStartsTheNextPass : Obligations.NextStartsTheNextPass := fun s => by
  refine ⟨fun hk => ?_, fun hb hk hp => ⟨nextPass s, exec_next hb hk.ge (by omega), rfl, ?_⟩⟩
  · rw [decodeSelect_eq_next_iff]
    exact and_congr_right fun _ => by omega
  · rw [nextPass_p]
    omega

/-! ### The result ports in `DONE` -/

theorem digO_of_done {s : State} (hd : s.st = .done) (n : Nat) : digO n s = BitVec.ofNat 64 (packBytes s.h.toList) :=
  if_pos (s.done_eq_true.mpr hd)

theorem hexO_of_done {s : State} (hd : s.st = .done) (n : Nat) :
    hexO n s = BitVec.ofNat 128 (packBytes (hexEncAccs s.h)) :=
  if_pos (s.done_eq_true.mpr hd)

/-- A state holds one message only. -/
theorem HoldsMessage.unique {s : State} {S T : List Byte} (hS : HoldsMessage s S) (hT : HoldsMessage s T) : S = T :=
  List.ext_getElem (hS.1.symm.trans hT.1) fun k hkS hkT => Option.some.inj ((hS.2 k hkS).symm.trans (hT.2 k hkT))

/-- Settles O18: `FIN` writes `ST`, which specifies the result ports, and at the end of the last pass the accumulators are
the digest. -/
theorem finCompletesTheRun : Obligations.FinCompletesTheRun := fun s => by
  refine ⟨fun hk => ?_, fun hb hk hp =>
    ⟨finishRun s, exec_fin hb hk.ge hp, rfl, rfl, rfl, fun n => ⟨digO_of_done rfl n, hexO_of_done rfl n⟩,
      fun S hi hm => ?_⟩⟩
  · rw [decodeSelect_eq_fin_iff]
    exact and_congr_right fun _ => by omega
  · obtain ⟨T, hT, -, hrun⟩ := hi.message
    obtain rfl := hm.unique hT
    have hdig : s.h = digestAcc S := (hrun hb).h_eq_digestAcc (hk.trans hm.1) hp
    exact ⟨hdig, congrArg hexEncAccs hdig⟩

/-! ### The turns of the sequencer -/

/-- In `BUSY` a waiting host and a silent one leave the turn to the sequencer, and the schedule stays as it is (R49). -/
theorem step_of_waiting {s : State} {rest : List Event} (hb : s.st = .busy) (hs : s.sched = .wait :: rest ∨ s.sched = []) :
    step s = seqStep s := by
  rcases hs with hs | hs
  · simp only [step, hs, if_pos (s.busy_eq_true.mpr hb)]
  · simp only [step, hs]

/-- Settles O7: in `BUSY` the turn is the sequencer's, which takes the micro-operation selected. -/
theorem sequencerRunsTheSelectedMicroOperation : Obligations.SequencerRunsTheSelectedMicroOperation :=
  fun s rest hb => by
  rw [← decodeSelect_of_busy hb]
  exact ⟨fun hs => step_move .seq s rest hs, step_of_waiting hb⟩

/-- Settles O8: outside `BUSY` a turn of the sequencer is the identity, and a wait is taken off the schedule. -/
theorem nothingMovesOutsideBusy : Obligations.NothingMovesOutsideBusy := fun s rest hb => by
  refine ⟨fun hs => ?_, fun hs => ?_, fun hs => ?_⟩
  · rw [step_move .seq s rest hs]
    exact seqStep_of_not_busy (s := { s with sched := rest }) hb
  · simp only [step, hs, s.busy_eq_false.mpr hb]
    rfl
  · simp only [step, hs, seqStep_of_not_busy hb]

/-! ### The stops of the model -/

theorem whenSelected_eq_refused_iff {op : Instr} {s : State} {effect : State → Result} {r : Refusal}
    (he : ∀ r, effect s ≠ .refused r) :
    whenSelected op s effect = .refused r ↔ r = .microOpNotSelected ∧ decodeSelect s.selectWord ≠ op := by
  by_cases hsel : decodeSelect s.selectWord = op
  · simp [whenSelected_of _ _ _ hsel, hsel, he]
  · simp [whenSelected_not _ _ _ hsel, hsel, eq_comm]

theorem whenSelected_eq_fault_iff {op : Instr} {s : State} {effect : State → Result} {f : Fault} :
    whenSelected op s effect = .fault f ↔ decodeSelect s.selectWord = op ∧ effect s = .fault f := by
  by_cases hsel : decodeSelect s.selectWord = op
  · simp [whenSelected_of _ _ _ hsel, hsel]
  · simp [whenSelected_not _ _ _ hsel, hsel]

theorem whenHostOwns_ne_refused {s : State} {effect : State → Result} (he : ∀ r, effect s ≠ .refused r) (r : Refusal) :
    whenHostOwns s effect ≠ .refused r := by
  cases hs : s.st with
  | fault => simp [whenHostOwns_fault _ _ hs]
  | busy => simp [whenHostOwns_busy _ _ hs]
  | idle => exact whenHostOwns_owned s effect (.inl hs) ▸ he r
  | done => exact whenHostOwns_owned s effect (.inr hs) ▸ he r

theorem whenHostOwns_eq_fault_iff {s : State} {effect : State → Result} {f : Fault} :
    whenHostOwns s effect = .fault f ↔ (s.st = .idle ∨ s.st = .done) ∧ effect s = .fault f := by
  cases hs : s.st with
  | fault => simp [whenHostOwns_fault _ _ hs]
  | busy => simp [whenHostOwns_busy _ _ hs]
  | idle => simp [whenHostOwns_owned s effect (.inl hs)]
  | done => simp [whenHostOwns_owned s effect (.inr hs)]

theorem appendByte_ne_refused (cap : Nat) (b : Byte) (s : State) (r : Refusal) : appendByte cap b s ≠ .refused r := by
  rcases appendByte_cases cap b s with ⟨_, e⟩ | ⟨_, e⟩ | ⟨_, e⟩ <;> simp [e]

/-- An append stops exactly above the buffer (R27; log 12). -/
theorem appendByte_eq_fault_iff {cap : Nat} {b : Byte} {s : State} {f : Fault} :
    appendByte cap b s = .fault f ↔ f = .msgAddressAbsent ∧ cap < s.len := by
  rcases appendByte_cases cap b s with ⟨hl, e⟩ | ⟨hl, e⟩ | ⟨hl, e⟩
  · simp [e, hl]
  · simp [e, hl.le]
  · simp [e, hl, eq_comm]

theorem foldByte_ne_refused (s : State) (r : Refusal) : foldByte s ≠ .refused r := by
  cases hr : s.byteOperand <;> simp [foldByte, hr]

/-- A fold stops exactly at a cell without a byte (R26; log 7). -/
theorem foldByte_eq_fault_iff {s : State} {f : Fault} :
    foldByte s = .fault f ↔ f = .msgCellUnwritten ∧ s.byteOperand = none := by
  cases hr : s.byteOperand <;> simp [foldByte, hr, eq_comm]

/-- A micro-operation is refused exactly where it is not selected, and a command nowhere (log 9). -/
theorem exec_eq_refused_iff (i : Instr) (s : State) (r : Refusal) :
    exec i s = .refused r ↔ r = .microOpNotSelected ∧ i.format = .seq ∧ decodeSelect s.selectWord ≠ i := by
  cases i with
  | nop => simp [exec, execNop, Instr.format]
  | rst => simp [exec, execRst, Instr.format]
  | clrm => simp [exec, execClrm, Instr.format, whenHostOwns_ne_refused]
  | ldb b => simp [exec, execLdb, Instr.format, whenHostOwns_ne_refused, appendByte_ne_refused]
  | go => simp [exec, execGo, Instr.format, whenHostOwns_ne_refused]
  | fold => simp [exec, execFold, Instr.format, whenSelected_eq_refused_iff, foldByte_ne_refused]
  | next => simp [exec, execNext, Instr.format, whenSelected_eq_refused_iff]
  | fin => simp [exec, execFin, Instr.format, whenSelected_eq_refused_iff]
  | hold => simp [exec, execHold, Instr.format, whenSelected_eq_refused_iff]

/-- `FOLD` stops exactly at a cell of the message never written (R26; log 7). -/
theorem exec_fold_eq_fault_iff {s : State} {f : Fault} :
    exec .fold s = .fault f ↔ f = .msgCellUnwritten ∧ s.st = .busy ∧ s.k < s.len ∧ s.msg.read s.k = none := by
  rw [exec, execFold, whenSelected_eq_fault_iff, foldByte_eq_fault_iff, decodeSelect_eq_fold_iff]
  constructor
  · rintro ⟨⟨hb, hk⟩, hf, hr⟩
    exact ⟨hf, hb, hk, byteOperand_of_lt hk ▸ hr⟩
  · rintro ⟨hf, hb, hk, hr⟩
    exact ⟨⟨hb, hk⟩, hf, (byteOperand_of_lt hk).trans hr⟩

/-- `LDB` stops exactly above the buffer (R27; log 12). -/
theorem exec_ldb_eq_fault_iff {b : Byte} {s : State} {f : Fault} :
    exec (.ldb b) s = .fault f ↔ f = .msgAddressAbsent ∧ (s.st = .idle ∨ s.st = .done) ∧ Config.MSG_CAP < s.len := by
  rw [exec, execLdb, whenHostOwns_eq_fault_iff, appendByte_eq_fault_iff]
  exact and_left_comm

/-- Settles O20: refusals come from the gate of the micro-operations alone, faults from the two memory accesses alone. -/
theorem modelStopsOnlyThere : Obligations.ModelStopsOnlyThere := fun i s => by
  refine ⟨exec_eq_refused_iff i s, fun f => ?_⟩
  cases i with
  | nop => simp [exec, execNop]
  | rst => simp [exec, execRst]
  | clrm => simp [exec, execClrm, whenHostOwns_eq_fault_iff]
  | ldb b => simp [exec_ldb_eq_fault_iff]
  | go => simp [exec, execGo, whenHostOwns_eq_fault_iff]
  | fold => simp [exec_fold_eq_fault_iff]
  | next => simp [exec, execNext, whenSelected_eq_fault_iff]
  | fin => simp [exec, execFin, whenSelected_eq_fault_iff]
  | hold => simp [exec, execHold, whenSelected_eq_fault_iff]

/-! ### A run over a message: its invariant, its end, its variant -/

/-- A run over `S` goes on in `s`: what a turn of the sequencer needs and keeps, of the invariants of R23. -/
structure Running (S : List Byte) (s : State) : Prop where
  busy : s.st = .busy
  holds : HoldsMessage s S
  k_le : s.k ≤ s.len
  progress : RunInProgress s S

/-- The state in which a run over `S` ends, from any state of the run (R63). What it keeps of `s` is the frame of the
run: two states of one run have the same end. -/
def completed (S : List Byte) (s : State) : State := { s with h := digestAcc S, p := 7, k := s.len, st := .done }

/-- Two states with the same end have the same schedule. -/
theorem sched_eq_of_completed_eq {S : List Byte} {s t : State} (h : completed S t = completed S s) :
    t.sched = s.sched := by
  have hsched : (completed S t).sched = (completed S s).sched := by rw [h]
  exact hsched

/-- With the digest in the accumulators and `P`, `K` at their last values, `FIN` gives the end of the run (R61). -/
theorem completed_eq_finishRun {S : List Byte} {s : State} (hh : s.h = digestAcc S) (hp : s.p = 7) (hk : s.k = s.len) :
    completed S s = finishRun s := by
  simp only [completed, finishRun, hh, hp, hk]

theorem Running.of_inv {s : State} (hi : Inv s) (hb : s.st = .busy) : ∃ S, Running S s :=
  let ⟨S, hm, _, hrun⟩ := hi.message
  ⟨S, hb, hm, hi.k_le (.inl hb), hrun hb⟩

theorem Running.withSched {S : List Byte} {s : State} (hr : Running S s) (es : List Event) :
    Running S { s with sched := es } :=
  ⟨hr.busy, hr.holds.withSched es, hr.k_le, hr.progress.withSched es⟩

/-- `GO` begins a run over the message held (R82). -/
theorem running_startRun {S : List Byte} {s : State} (hm : HoldsMessage s S) : Running S (startRun s) :=
  ⟨rfl, hm, Nat.zero_le _, runInProgress_startRun s S⟩

/-- A run begins with the variant `8 * LEN + 8` (R62). -/
theorem runVariant_startRun (s : State) : runVariant (startRun s) = 8 * s.len + 8 := by
  simp only [runVariant, startRun_p, startRun_k, startRun_len, Fin.val_zero]
  omega

theorem runVariant_pos (s : State) : 0 < runVariant s := Nat.succ_pos _

/-- A `FOLD` takes one from the variant (R62). -/
theorem runVariant_writeFolded {s : State} (v : Byte) (hk : s.k < s.len) :
    runVariant (writeFolded v s) + 1 = runVariant s := by
  simp only [runVariant, writeFolded_p, writeFolded_k, writeFolded_len]
  omega

/-- A `NEXT` at the end of a pass takes one from the variant (R62). -/
theorem runVariant_nextPass {s : State} (hk : s.k = s.len) (hp : s.p ≠ 7) :
    runVariant (nextPass s) + 1 = runVariant s := by
  obtain ⟨q, hq⟩ : ∃ q, 7 - s.p.val = q + 1 := ⟨6 - s.p.val, by omega⟩
  have hq' : 7 - (s.p + 1).val = q := by omega
  simp only [runVariant, nextPass_p, nextPass_k, nextPass_len, hq, hq', hk, Nat.succ_mul]
  omega

/-- The variant is 1 exactly at the end of the last pass (R62). -/
theorem runVariant_eq_one_iff (s : State) : runVariant s = 1 ↔ s.len ≤ s.k ∧ s.p = 7 := by
  have hmul : (7 - s.p.val) * (s.len + 1) = 0 ↔ s.p = 7 := by
    rw [Nat.mul_eq_zero]
    omega
  rw [← hmul, runVariant]
  omega

/-- A turn of the sequencer in a run: the run goes on with the variant one less, towards the same end, or the variant was 1
and the run is at its end (R57, R62). -/
theorem Running.seqStep_cases {S : List Byte} {s : State} (hr : Running S s) :
    (∃ t, seqStep s = .next t ∧ Running S t ∧ completed S t = completed S s ∧ runVariant t + 1 = runVariant s) ∨
    (seqStep s = .next (completed S s) ∧ runVariant s = 1) := by
  obtain ⟨hb, hm, hle, hrun⟩ := hr
  have hlen := hm.1
  rcases Machine.seqStep_cases s with ⟨hb', _⟩ | ⟨_, hk, hread, _⟩ | ⟨_, hk, b, hread, e⟩ | ⟨_, hk, hp, e⟩ | ⟨_, hk, hp, e⟩
  · exact absurd hb hb'
  · cases hread.symm.trans (hm.2 s.k (hlen ▸ hk))
  · have hkS : s.k < S.length := hlen ▸ hk
    obtain rfl : S[s.k] = b := Option.some.inj ((hm.2 s.k hkS).symm.trans hread)
    exact .inl ⟨_, e, ⟨hb, hm, hk, hrun.writeFolded_inProgress hkS⟩, rfl, runVariant_writeFolded _ hk⟩
  · have hkS : s.k = s.len := le_antisymm hle hk
    exact .inl ⟨_, e, ⟨hb, hm, Nat.zero_le _, hrun.nextPass_inProgress (hkS.trans hlen) hp⟩, rfl,
      runVariant_nextPass hkS hp⟩
  · have hkS : s.k = s.len := le_antisymm hle hk
    have hend : completed S s = finishRun s := completed_eq_finishRun (hrun.h_eq_digestAcc (hkS.trans hlen) hp) hp hkS
    exact .inr ⟨hend ▸ e, (runVariant_eq_one_iff s).2 ⟨hk, hp⟩⟩

/-- Settles O50: `FIN` is selected exactly at the end of the last pass, and each turn is one of the two cases of a run. -/
theorem runVariantFallsByOne : Obligations.RunVariantFallsByOne := fun s hi hb => by
  refine ⟨?_, ?_⟩
  · rw [runVariant_eq_one_iff, decodeSelect_eq_fin_iff]
    exact (and_iff_right hb).symm
  · obtain ⟨S, hr⟩ := Running.of_inv hi hb
    rcases hr.seqStep_cases with ⟨t, e, ht, _, hv⟩ | ⟨e, hv⟩
    · exact ⟨t, e, .inl ⟨ht.busy, hv⟩⟩
    · exact ⟨_, e, .inr ⟨rfl, hv⟩⟩

/-! ### Runs beside a waiting or silent host -/

/-- While the host waits or is silent a run takes as many steps as its variant, and the states before its end are states
of the run (R62). -/
theorem Running.runSteps_of_waiting {S : List Byte} {s : State} {rest : List Event} (hr : Running S s)
    (hs : s.sched = .wait :: rest ∨ s.sched = []) :
    (∀ n < runVariant s, ∃ t, runSteps n s = .next t ∧ Running S t) ∧
      runSteps (runVariant s) s = .next (completed S s) := by
  generalize hv : runVariant s = v
  induction v generalizing s with
  | zero => exact absurd hv (runVariant_pos s).ne'
  | succ v ih =>
    have hstep := step_of_waiting hr.busy hs
    rcases hr.seqStep_cases with ⟨t, e, ht, hend, hvt⟩ | ⟨e, hv1⟩
    · obtain ⟨hbefore, hlast⟩ := ih ht (sched_eq_of_completed_eq hend ▸ hs) (by omega)
      refine ⟨fun n hn => ?_, ?_⟩
      · cases n with
        | zero => exact ⟨s, rfl, hr⟩
        | succ n => exact runSteps_succ n (hstep.trans e) ▸ hbefore n (by omega)
      · rw [runSteps_succ v (hstep.trans e), hlast, hend]
    · obtain rfl : v = 0 := by omega
      refine ⟨fun n hn => ?_, runSteps_succ 0 (hstep.trans e)⟩
      obtain rfl : n = 0 := by omega
      exact ⟨s, rfl, hr⟩

/-- The host's move `GO` in `IDLE` or `DONE` (R82). -/
theorem hostStep_go {s : State} (hown : s.st = .idle ∨ s.st = .done) :
    hostStep (commandPins 0x400#11) s = .next (startRun s) :=
  whenHostOwns_owned s (fun s => .next (startRun s)) hown

theorem step_go {s : State} {rest : List Event} (hown : s.st = .idle ∨ s.st = .done)
    (hs : s.sched = .host (commandPins 0x400#11) :: rest) : step s = .next (startRun { s with sched := rest }) :=
  (step_move (.host (commandPins 0x400#11)) s rest hs).trans (hostStep_go (s := { s with sched := rest }) hown)

/-- Settles O51: after `GO` the host is silent, and the variant is `8 * LEN + 8`. -/
theorem runTakesEightLenPlusEightSteps : Obligations.RunTakesEightLenPlusEightSteps := fun s S hm hown hs => by
  have hstep := step_go hown hs
  have hr : Running S (startRun { s with sched := [] }) := running_startRun (hm.withSched [])
  have hv : runVariant (startRun { s with sched := [] }) = 8 * S.length + 8 := by rw [runVariant_startRun, ← hm.1]
  obtain ⟨hbefore, hlast⟩ := hr.runSteps_of_waiting (rest := []) (.inr rfl)
  rw [hv] at hbefore hlast
  refine ⟨fun n hn => ?_, completed S (startRun { s with sched := [] }), ?_, rfl⟩
  · obtain ⟨t, hrun, ht⟩ := hbefore n hn
    exact ⟨t, by rw [Nat.add_comm, runSteps_succ n hstep, hrun], ht.busy⟩
  · rw [Nat.add_comm, runSteps_succ _ hstep, hlast]

/-! ### Runs under a quiet schedule -/

/-- A quiet move of the host changes nothing (R19, R78). -/
theorem hostStep_of_quiet {pins : HostPins} (hq : (Event.host pins).quiet = true) (s : State) :
    hostStep pins s = .next s := by
  obtain ⟨rst, valid, w⟩ := pins
  match rst, valid with
  | true, _ => cases hq
  | false, false => rfl
  | false, true =>
    obtain rfl : w = 0x000#11 := by simpa [Event.quiet] using hq
    rfl

/-- Outside `BUSY` a quiet move is taken off the schedule and changes nothing (R58). -/
theorem step_of_quiet_of_not_busy {s : State} {e : Event} {rest : List Event} (hb : s.st ≠ .busy) (hq : e.quiet = true)
    (hs : s.sched = e :: rest) : step s = .next { s with sched := rest } := by
  obtain ⟨hseq, hwait, -⟩ := nothingMovesOutsideBusy s rest hb
  cases e with
  | host pins => exact (step_move (.host pins) s rest hs).trans (hostStep_of_quiet hq _)
  | seq => exact hseq hs
  | wait => exact hwait hs

/-- Outside `BUSY` a quiet schedule is used up and changes nothing. -/
theorem runSteps_of_quiet_of_not_busy {s : State} {es : List Event} (hb : s.st ≠ .busy)
    (hq : ∀ e ∈ es, e.quiet = true) : runSteps es.length { s with sched := es } = .next { s with sched := [] } := by
  induction es with
  | nil => rfl
  | cons e es ih =>
    obtain ⟨he, hes⟩ := List.forall_mem_cons.1 hq
    have hstep := step_of_quiet_of_not_busy (s := { s with sched := e :: es }) hb he rfl
    exact (runSteps_succ es.length hstep).trans (ih hes)

/-- A run under a quiet schedule with a wait, or with turns enough, comes to its end with the schedule used up, in one step
per listed move if there is no wait (R63). -/
theorem Running.runSteps_of_quiet {S : List Byte} {s : State} {es : List Event} (hr : Running S s)
    (hq : ∀ e ∈ es, e.quiet = true) (hturns : .wait ∈ es ∨ runVariant s ≤ seqTurns es) :
    ∃ m, runSteps m { s with sched := es } = .next { completed S s with sched := [] } ∧ (.wait ∉ es → m = es.length) := by
  induction es generalizing s with
  | nil => exact absurd (runVariant_pos s) (by simpa [seqTurns] using hturns)
  | cons e es ih =>
    obtain ⟨he, hes⟩ := List.forall_mem_cons.1 hq
    cases e with
    | host pins =>
      have hstep := (step_move (.host pins) { s with sched := .host pins :: es } es rfl).trans (hostStep_of_quiet he _)
      obtain ⟨m, hrun, hm⟩ := ih hr hes (by simpa [seqTurns] using hturns)
      exact ⟨m + 1, (runSteps_succ m hstep).trans hrun, fun hw => congrArg Nat.succ (hm (by simpa using hw))⟩
    | seq =>
      have hstep := step_move .seq { s with sched := .seq :: es } es rfl
      rcases hr.seqStep_cases with ⟨t, e, ht, hend, hv⟩ | ⟨e, -⟩
      · have hturn := hstep.trans (seqStep_withSched s t es e).2
        have hleft : .wait ∈ es ∨ runVariant s ≤ seqTurns es + 1 := by simpa [seqTurns] using hturns
        obtain ⟨m, hrun, hm⟩ := ih ht hes (hleft.imp_right (by omega))
        rw [hend] at hrun
        exact ⟨m + 1, (runSteps_succ m hturn).trans hrun, fun hw => congrArg Nat.succ (hm (by simpa using hw))⟩
      · have hturn := hstep.trans (seqStep_withSched s _ es e).2
        have hrun := runSteps_of_quiet_of_not_busy (s := completed S s) nofun hes
        exact ⟨es.length + 1, (runSteps_succ _ hturn).trans hrun, fun _ => rfl⟩
    | wait =>
      obtain ⟨-, hlast⟩ := (hr.withSched (.wait :: es)).runSteps_of_waiting (.inl rfl)
      have hrun := runSteps_of_quiet_of_not_busy (s := completed S s) nofun hq
      exact ⟨_, (runSteps_add _ hlast).trans hrun, fun hw => absurd List.mem_cons_self hw⟩

/-- A `GO` and a quiet schedule after it (R63): the state at the end. -/
theorem runSteps_go_of_quiet {S : List Byte} {s : State} {es : List Event} (hm : HoldsMessage s S)
    (hown : s.st = .idle ∨ s.st = .done) (hs : s.sched = .host (commandPins 0x400#11) :: es)
    (hq : ∀ e ∈ es, e.quiet = true) (hturns : .wait ∈ es ∨ 8 * s.len + 8 ≤ seqTurns es) :
    ∃ m, runSteps m s = .next { completed S s with sched := [] } ∧ (.wait ∉ es → m = 1 + es.length) := by
  obtain ⟨m, hrun, hlen⟩ := (running_startRun hm).runSteps_of_quiet hq (by rwa [runVariant_startRun])
  exact ⟨m + 1, (runSteps_succ m (step_go hown hs)).trans hrun, fun hw => by rw [hlen hw, Nat.add_comm]⟩

/-- Settles O53: the run ends with the digest in the accumulators, where they were before it. -/
theorem goInDoneRecomputesTheSameDigest : Obligations.GoInDoneRecomputesTheSameDigest := fun s es hi hd hs hq hturns => by
  obtain ⟨S, hm, hdig, -⟩ := hi.message
  obtain ⟨m, hrun, -⟩ := runSteps_go_of_quiet hm (.inr hd) hs hq hturns
  obtain ⟨hp, hk⟩ := hi.done_pos hd
  have hsame : completed S s = s := by rw [completed_eq_finishRun (hdig hd) hp hk, finishRun, ← hd]
  rw [hsame] at hrun
  refine ⟨m, _, hrun, rfl, fun m n => ⟨?_, ?_⟩⟩
  · exact (digO_of_done (s := { s with sched := [] }) hd m).trans (digO_of_done hd n).symm
  · exact (hexO_of_done (s := { s with sched := [] }) hd m).trans (hexO_of_done hd n).symm

/-! ### Runs in a weakly fair execution -/

/-- From point `N` on, the host's moves in `BUSY` are quiet ones. -/
def QuietFrom (N : Nat) (state : Nat → State) (move : Nat → Option Move) : Prop :=
  ∀ n pins, N ≤ n → (state n).st = .busy → move n = some (.host pins) → (Event.host pins).quiet = true

/-- A transition other than one of the sequencer changes nothing, if a move of the host is a quiet one. -/
theorem transition_of_quiet {m : Option Move} {s t : State} (h : Transition m s t) (hseq : m ≠ some .seq)
    (hq : ∀ pins, m = some (.host pins) → (Event.host pins).quiet = true) : t = s := by
  match m with
  | none => exact h
  | some .seq => exact absurd rfl hseq
  | some (.host pins) => exact (Host.Outcome.next.inj ((hostStep_of_quiet (hq pins rfl) s).symm.trans h.2)).symm

section
variable {state : Nat → State} {move : Nat → Option Move} {N : Nat}

/-- Until the sequencer moves, a quiet execution stays in its state. -/
theorem state_eq_until_seq (he : IsExecution state move) (hq : QuietFrom N state move) (hb : (state N).st = .busy)
    {M : Nat} (hNM : N ≤ M) (hno : ∀ i, N ≤ i → i < M → move i ≠ some .seq) : state M = state N := by
  induction M, hNM using Nat.le_induction with
  | base => rfl
  | succ M hNM ih =>
    have hsame := ih fun i hi hiM => hno i hi (by omega)
    have hstay := transition_of_quiet (he M) (hno M hNM (by omega)) fun pins hm => hq M pins hNM (hsame ▸ hb) hm
    exact hstay.trans hsame

/-- In `BUSY` a quiet, weakly fair execution stays in its state until the sequencer moves, and the sequencer does (R106). -/
theorem exists_seq_move (he : IsExecution state move) (hf : WeaklyFair state move) (hq : QuietFrom N state move)
    (hb : (state N).st = .busy) :
    ∃ M, N ≤ M ∧ (∀ i, N ≤ i → i ≤ M → state i = state N) ∧ move M = some .seq := by
  have hex : ∃ M, N ≤ M ∧ move M = some .seq := by
    by_contra hno
    have hstay : ∀ n, N ≤ n → (state n).st = .busy := fun n hn =>
      (congrArg State.st (state_eq_until_seq he hq hb hn fun i hi _ hm => hno ⟨i, hi, hm⟩)).trans hb
    exact hno (hf ⟨N, hstay⟩ N)
  classical
  obtain ⟨hNM, hM⟩ := Nat.find_spec hex
  refine ⟨Nat.find hex, hNM, fun i hi hiM => ?_, hM⟩
  exact state_eq_until_seq he hq hb hi fun j hj hji hm => Nat.find_min hex (hji.trans_le hiM) ⟨hj, hm⟩

/-- A run in a quiet, weakly fair execution comes to its end, and is in `BUSY` up to it (R63, R106). -/
theorem Running.execution_completes {S : List Byte} (he : IsExecution state move) (hf : WeaklyFair state move)
    (hq : QuietFrom N state move) (hr : Running S (state N)) :
    ∃ n, (∀ i, N ≤ i → i < n → (state i).st = .busy) ∧ state n = completed S (state N) := by
  generalize hv : runVariant (state N) = v
  induction v generalizing N with
  | zero => exact absurd hv (runVariant_pos _).ne'
  | succ v ih =>
    obtain ⟨M, hNM, hstay, hM⟩ := exists_seq_move he hf hq hr.busy
    have hMN := hstay M hNM le_rfl
    have hbusy : ∀ i, N ≤ i → i ≤ M → (state i).st = .busy := fun i hi hiM => hstay i hi hiM ▸ hr.busy
    have hturn : seqStep (state N) = .next (state (M + 1)) := by
      have htrans := he M
      rw [hM, hMN] at htrans
      exact htrans.2
    rcases hr.seqStep_cases with ⟨t, e, ht, hend, hvt⟩ | ⟨e, -⟩
    · obtain rfl : state (M + 1) = t := Host.Outcome.next.inj (hturn.symm.trans e)
      obtain ⟨n, hbefore, hlast⟩ := ih (fun n pins hn => hq n pins (by omega)) ht (by omega)
      refine ⟨n, fun i hi hin => ?_, hlast.trans hend⟩
      rcases Nat.lt_or_ge M i with hMi | hiM
      · exact hbefore i hMi hin
      · exact hbusy i hi hiM
    · exact ⟨M + 1, fun i hi hiM => hbusy i hi (Nat.le_of_lt_succ hiM), Host.Outcome.next.inj (hturn.symm.trans e)⟩

/-- A `GO` that begins a quiet, weakly fair execution (R63, R106): the state the run ends in. -/
theorem execution_go_completes {S : List Byte} (he : IsExecution state move) (hf : WeaklyFair state move)
    (hm : HoldsMessage (state 0) S) (hown : (state 0).st = .idle ∨ (state 0).st = .done)
    (hgo : move 0 = some (.host (commandPins 0x400#11))) (hq : QuietFrom 1 state move) :
    ∃ n, (∀ i, 0 < i → i < n → (state i).st = .busy) ∧ state n = completed S (state 0) := by
  have hstart : state 1 = startRun (state 0) := by
    have htrans := he 0
    rw [hgo] at htrans
    exact Host.Outcome.next.inj (htrans.2.symm.trans (hostStep_go hown))
  have hr : Running S (state 1) := hstart ▸ running_startRun hm
  obtain ⟨n, hbefore, hlast⟩ := hr.execution_completes he hf hq
  exact ⟨n, hbefore, by rw [hlast, hstart]; rfl⟩

end

/-- The end of a run over `S` as the result ports show it (R63). -/
theorem hexO_completed (S : List Byte) (s : State) (n : Nat) :
    hexO n (completed S s) = BitVec.ofNat 128 (packBytes (digestHex S)) :=
  hexO_of_done rfl n

/-- Settles O52: under a schedule and in an execution alike, the run that `GO` begins comes to its end. -/
theorem quietRunEndsInTheDigest : Obligations.QuietRunEndsInTheDigest := by
  refine ⟨fun s S es hm hown hs hq hturns => ?_, fun state move S he hf hm hown hgo hq => ?_⟩
  · obtain ⟨m, hrun, hlen⟩ := runSteps_go_of_quiet hm hown hs hq (hm.1 ▸ hturns)
    exact ⟨m, _, hrun, hlen, rfl, rfl, rfl, rfl, rfl, fun n => hexO_completed S { s with sched := [] } n⟩
  · obtain ⟨n, hbefore, hlast⟩ := execution_go_completes he hf hm hown hgo hq
    refine ⟨n, hbefore, ?_⟩
    rw [hlast]
    exact ⟨rfl, rfl, rfl, rfl, hexO_completed S (state 0)⟩

end Sys2Proof.Machine
end

section
/-! SUPPORT. The statements of 41_hex_encoder.md: the characters of `HexEnc` as digits of the values, their alphabet, the
inverse and with it injectivity, the pair `ff`, and the digest string shown in `DONE`. -/

namespace Sys2Proof.Machine

/-! ### The digits of a masked value -/

/-- The mask is the remainder modulo 256 (R70). -/
theorem mask8_eq_ofNat (v : Nat) : mask8 v = BitVec.ofNat 8 (v % 256) :=
  congrArg (BitVec.ofNat 8) (Nat.and_two_pow_sub_one_eq_mod v 8)

theorem mask8_high (v : Nat) : (mask8 v).extractLsb' 4 4 = BitVec.ofNat 4 (v % 256 / 16) := by
  apply BitVec.eq_of_toNat_eq
  rw [mask8_eq_ofNat, BitVec.extractLsb'_toNat, BitVec.toNat_ofNat, BitVec.toNat_ofNat, Nat.mod_mod,
    Nat.shiftRight_eq_div_pow]

theorem mask8_low (v : Nat) : (mask8 v).extractLsb' 0 4 = BitVec.ofNat 4 (v % 16) := by
  apply BitVec.eq_of_toNat_eq
  rw [mask8_eq_ofNat, BitVec.extractLsb'_toNat, BitVec.toNat_ofNat, BitVec.toNat_ofNat, Nat.shiftRight_zero]
  omega

/-- Settles O46: value `j` gives the characters of the two nibbles of its mask, and these are its digits. -/
theorem hexEncRendersEachValue : Obligations.HexEncRendersEachValue := fun V =>
  ⟨hexEnc_length V, fun j hj => by
    rw [← mask8_high, ← mask8_low]
    exact hexEnc_getElem? (List.getElem?_eq_getElem hj)⟩

/-! ### The inverse -/

theorem nibbleOfHexchar_hexchar : ∀ n : BitVec 4, nibbleOfHexchar (hexchar n) = some n := by decide

/-- A byte is put together again from its nibbles, as R74 does it. -/
theorem ofNat_nibbles (b : Byte) :
    BitVec.ofNat 8 (16 * (b.extractLsb' 4 4).toNat + (b.extractLsb' 0 4).toNat) = b := by
  apply BitVec.eq_of_toNat_eq
  have hb := b.isLt
  rw [BitVec.toNat_ofNat, BitVec.extractLsb'_toNat, BitVec.extractLsb'_toNat, Nat.shiftRight_zero,
    Nat.shiftRight_eq_div_pow]
  omega

/-- Decoding the two characters of a byte gives the byte (R74). -/
theorem hexDec_hexPair_append (b : Byte) {cs vs : List Byte} (h : hexDec cs = some vs) :
    hexDec (hexPair b ++ cs) = some (b :: vs) := by
  simp only [hexPair, List.cons_append, List.nil_append, hexDec, nibbleOfHexchar_hexchar, h, ofNat_nibbles]

/-- Settles O48, by induction on the byte sequence: each pair of characters gives its byte back. -/
theorem hexDecInvertsTheEncoder : Obligations.HexDecInvertsTheEncoder := fun V => by
  induction V with
  | nil => rfl
  | cons b V ih =>
    rw [List.map_cons, hexEnc, mask8_toNat]
    exact hexDec_hexPair_append b ih

/-! ### Alphabet, injectivity, and the length of a digest string -/

/-- The sixteen digit codes: `0` to `9` and `a` to `f` (R45). -/
theorem hexchar_range : ∀ n : BitVec 4, (0x30 ≤ (hexchar n).toNat ∧ (hexchar n).toNat ≤ 0x39) ∨
    (0x61 ≤ (hexchar n).toNat ∧ (hexchar n).toNat ≤ 0x66) := by decide

/-- Every character of a string is the code of a digit. -/
theorem exists_hexchar_of_mem_hexEnc {V : List Nat} {x : Byte} (h : x ∈ hexEnc V) : ∃ n, x = hexchar n := by
  induction V with
  | nil => cases h
  | cons v V ih =>
    rcases List.mem_append.mp h with hpair | hrest
    · rcases List.mem_pair.mp hpair with hx | hx
      · exact ⟨_, hx⟩
      · exact ⟨_, hx⟩
    · exact ih hrest

theorem hexEncAccs_length (h : Accs) : (hexEncAccs h).length = 16 := by simp [hexEncAccs, hexEnc_length]

/-- Settles O47: every character is a digit's code, and a string that can be read back (R74) determines its bytes. -/
theorem hexEncShapeAndInjectivity : Obligations.HexEncShapeAndInjectivity := by
  refine ⟨fun V => ⟨hexEnc_length V, fun x hx => ?_⟩, fun V W h => ?_, fun S => hexEncAccs_length _⟩
  · obtain ⟨n, rfl⟩ := exists_hexchar_of_mem_hexEnc hx
    exact hexchar_range n
  · have hdec := congrArg hexDec h
    rw [hexDecInvertsTheEncoder V, hexDecInvertsTheEncoder W] at hdec
    exact Option.some.inj hdec

/-! ### The pair `ff` -/

/-- The encoder shows `ff` for an accumulator of 255 only (R75). -/
theorem eq_of_hexEncAccs_ff {h : Accs} (j : Fin 8) (hhigh : (hexEncAccs h)[2 * j.val]? = some 0x66#8)
    (hlow : (hexEncAccs h)[2 * j.val + 1]? = some 0x66#8) : h[j] = 0xFF#8 := by
  have hval : (h.toList.map BitVec.toNat)[j.val]? = some h[j].toNat := by simp
  obtain ⟨hx, hy⟩ := hexEnc_getElem? hval
  rw [mask8_toNat] at hx hy
  exact eq_of_hexchars_ff (Option.some.inj (hx.symm.trans hhigh)) (Option.some.inj (hy.symm.trans hlow))

/-- Settles O49: no accumulator is 255, in a digest (R65 (e)) or under the invariants (R23 (i)). -/
theorem noAccumulatorReadsFF : Obligations.NoAccumulatorReadsFF := by
  refine ⟨fun S j hj => digestHex_not_ff S ⟨j, hj⟩, fun s j hi hj ⟨hhigh, hlow⟩ => ?_, by decide⟩
  have hff : s.h[j] = 0xFF#8 := eq_of_hexEncAccs_ff ⟨j, hj⟩ hhigh hlow
  have hle : s.h[j].toNat ≤ 254 := hi.acc_le ⟨j, hj⟩
  rw [hff] at hle
  exact absurd hle (by decide)

/-! ### The digest string in `DONE` -/

/-- Runs of any length keep the invariants (R23). -/
theorem inv_runSteps {n : Nat} {s t : State} (hi : Inv s) (h : runSteps n s = .next t) : Inv t := by
  induction n generalizing s with
  | zero => cases h; exact hi
  | succ n ih =>
    obtain ⟨u, hstep, hrun⟩ := exists_step_of_runSteps_succ h
    exact ih (stepKeepsTheInvariants s u hi hstep) hrun

/-- Settles O56: the invariants hold at reset under any schedule and over every run; in `DONE` they say that the
accumulators are the digest of the message held (R23 (vi)). -/
theorem doneAlwaysShowsTheDigest : Obligations.DoneAlwaysShowsTheDigest := fun es n t hrun hd => by
  have hi : Inv t := inv_runSteps (resetMeetsTheInvariants.withSched es) hrun
  obtain ⟨S, hm, hdone, -⟩ := hi.message
  exact ⟨S, hm, hdone hd, congrArg hexEncAccs (hdone hd)⟩

end Sys2Proof.Machine
end

section
/-! SUPPORT. The statements of 42_host_commands.md: the host commands one by one in every status, the steps that enter
`BUSY` and `DONE`, and the host's program for a digest. -/

namespace Sys2Proof.Machine

/-! ### The status over the moves of each agent -/

/-- A command leaves `ST`, writes `IDLE` or `FAULT` into it, or is the `GO` that starts a run (R77). -/
theorem commandStep_st_cases {w : CmdWord} {s t : State} (h : commandStep w s = .next t) :
    t.st = s.st ∨ t.st = .idle ∨ t.st = .fault ∨
      (decodeCommand w = .ok .go ∧ (s.st = .idle ∨ s.st = .done) ∧ t = startRun s) := by
  rcases commandStep_cases w s t h with
    ⟨rfl, _⟩ | ⟨_, rfl⟩ | ⟨_, _, rfl⟩ | ⟨_, _, rfl⟩ | ⟨hs, ⟨_, rfl⟩ | ⟨b, _, ⟨_, rfl⟩ | ⟨_, rfl⟩⟩ | ⟨hd, rfl⟩⟩
  · exact .inl rfl
  · exact .inr (.inl rfl)
  · exact .inr (.inr (.inl rfl))
  · exact .inr (.inr (.inl rfl))
  · exact .inr (.inl rfl)
  · exact .inr (.inr (.inl rfl))
  · exact .inr (.inl rfl)
  · exact .inr (.inr (.inr ⟨hd, hs, rfl⟩))

/-- A host move leaves `ST`, writes `IDLE` or `FAULT` into it, or is the transaction of `GO` that starts a run. -/
theorem hostStep_st_cases {pins : HostPins} {s t : State} (h : hostStep pins s = .next t) :
    t.st = s.st ∨ t.st = .idle ∨ t.st = .fault ∨
      (pins = commandPins 0x400#11 ∧ (s.st = .idle ∨ s.st = .done) ∧ t = startRun s) := by
  obtain ⟨rst, valid, w⟩ := pins
  match rst, valid with
  | true, _ => cases h; exact .inr (.inl rfl)
  | false, false => cases h; exact .inl rfl
  | false, true =>
    exact (commandStep_st_cases h).imp_right <| .imp_right <| .imp_right fun ⟨hd, hstart⟩ =>
      ⟨congrArg commandPins (eq_of_decodeCommand_go hd), hstart⟩

/-- A turn of the sequencer leaves `ST` or is the `FIN` that ends the run (R59 to R61). -/
theorem seqStep_st_cases {s t : State} (h : seqStep s = .next t) :
    t.st = s.st ∨ (s.st = .busy ∧ s.len ≤ s.k ∧ s.p = 7 ∧ t = finishRun s) := by
  rcases seqStep_cases s with ⟨_, e⟩ | ⟨_, _, _, e⟩ | ⟨_, _, b, _, e⟩ | ⟨_, _, _, e⟩ | ⟨hb, hk, hp, e⟩ <;>
    cases e.symm.trans h
  · exact .inl rfl
  · exact .inl rfl
  · exact .inl rfl
  · exact .inr ⟨hb, hk, hp, rfl⟩

/-- A step into `BUSY` is a transaction of `GO` (R82): no other move writes `BUSY`. -/
theorem step_enters_busy {s t : State} (h : step s = .next t) (hs : s.st ≠ .busy) (ht : t.st = .busy) :
    (s.st = .idle ∨ s.st = .done) ∧ ∃ rest, s.sched = .host (commandPins 0x400#11) :: rest ∧
      t = startRun { s with sched := rest } := by
  rcases hostStep_or_seqStep_of_step h with ⟨pins, rest, hsched, hmove⟩ | hturn
  · rcases hostStep_st_cases hmove with hst | hst | hst | ⟨rfl, hown, rfl⟩
    · exact absurd (hst.symm.trans ht) hs
    · cases hst.symm.trans ht
    · cases hst.symm.trans ht
    · exact ⟨hown, rest, hsched, rfl⟩
  · rcases seqStep_st_cases hturn with hst | ⟨hb, _⟩
    · exact absurd (hst.symm.trans ht) hs
    · exact absurd hb hs

/-- No host move enters `DONE` (R14). -/
theorem hostStep_st_ne_done {pins : HostPins} {s t : State} (h : hostStep pins s = .next t) (hs : s.st ≠ .done) :
    t.st ≠ .done := by
  rcases hostStep_st_cases h with hst | hst | hst | ⟨-, -, rfl⟩
  · exact hst ▸ hs
  · simp [hst]
  · simp [hst]
  · simp

/-- Settles O32: of the host's moves `GO` alone writes `BUSY` and none writes `DONE`, and of the sequencer's turns `FIN`
alone writes `ST`. -/
theorem onlyGoStartsAndOnlyFinCompletes : Obligations.OnlyGoStartsAndOnlyFinCompletes := fun s t h => by
  refine ⟨step_enters_busy h, fun hs ht => ?_⟩
  have hno : ∀ pins rest, s.sched ≠ .host pins :: rest := fun pins rest hsched =>
    hostStep_st_ne_done (s := { s with sched := rest }) ((step_move (.host pins) s rest hsched).symm.trans h) hs ht
  rcases seqStep_st_cases (seqStep_of_step hno h) with hst | ⟨hb, hk, hp, hfin⟩
  · exact absurd (hst.symm.trans ht) hs
  · exact ⟨hb, hk, hp, hno, hfin ▸ exec_fin hb hk hp, hfin⟩

/-! ### The result ports outside `DONE` -/

theorem digO_of_not_done {s : State} (hd : s.st ≠ .done) (n : Nat) : digO n s = Config.freeDigO n :=
  if_neg (mt s.done_eq_true.mp hd)

theorem hexO_of_not_done {s : State} (hd : s.st ≠ .done) (n : Nat) : hexO n s = Config.freeHexO n :=
  if_neg (mt s.done_eq_true.mp hd)

/-- Settles O39: both result ports take their value from `H` in `DONE` only. -/
theorem resultPortsDrawOutsideDone : Obligations.ResultPortsDrawOutsideDone := fun _ n hd =>
  ⟨digO_of_not_done hd n, hexO_of_not_done hd n⟩

/-! ### The commands one by one -/

/-- Settles O6: the host's move is a command transaction, which runs the instruction its word decodes to. -/
theorem stepRunsTheDecodedCommand : Obligations.StepRunsTheDecodedCommand := fun s w i rest hs hw => by
  rw [step_command hs, commandStep, hw]

/-- Settles O11: the word `0x000` is the encoding of `NOP`, whose effect is the identity. -/
theorem nopChangesNothing : Obligations.NopChangesNothing :=
  ⟨decodeCommand_eq_ok_iff.mpr rfl, fun _ => rfl⟩

/-! The three commands that pass the gate of R77. -/

theorem exec_clrm (s : State) : exec .clrm s = whenHostOwns s fun s => .next (clearMessage s) := rfl

theorem exec_ldb (b : Byte) (s : State) : exec (.ldb b) s = whenHostOwns s (appendByte Config.MSG_CAP b) := rfl

theorem exec_go (s : State) : exec .go s = whenHostOwns s fun s => .next (startRun s) := rfl

/-- In `FAULT` every command transaction but that of `RST` is ignored (R77, R79). -/
theorem commandStep_of_fault {w : CmdWord} {s : State} (hf : s.st = .fault) (hw : decodeCommand w ≠ .ok .rst) :
    commandStep w s = .next s := by
  rcases hd : decodeCommand w with e | i
  · rw [commandStep, hd, illegalCommand_fault s hf]
  · have hexec : commandStep w s = exec i s := by rw [commandStep, hd]
    rw [hexec]
    rcases decodeCommand_isCommand w i hd with rfl | rfl | rfl | ⟨b, rfl⟩ | rfl
    · rfl
    · exact absurd hd hw
    · rw [exec_clrm, whenHostOwns_fault s _ hf]
    · rw [exec_ldb, whenHostOwns_fault s _ hf]
    · rw [exec_go, whenHostOwns_fault s _ hf]

/-- Settles O12: `RST` and the reset event both are the reset of the registers, and in `FAULT` no other command acts. -/
theorem rstRestoresResetValues : Obligations.RstRestoresResetValues :=
  ⟨decodeCommand_eq_ok_iff.mpr rfl,
   fun s => ⟨resetRegisters s, rfl, rfl, rfl, rfl, rfl, fun _ hrst => if_pos hrst⟩,
   fun _ _ => commandStep_of_fault⟩

/-- Settles O13: the gate of the message commands by the status; with `LEN = 0` the message is empty. -/
theorem clrmEmptiesTheMessage : Obligations.ClrmEmptiesTheMessage := by
  refine ⟨decodeCommand_eq_ok_iff.mpr rfl, fun s => ?_⟩
  rw [exec_clrm]
  refine ⟨fun hown => ?_, whenHostOwns_busy s _, whenHostOwns_fault s _⟩
  have hdone : (clearMessage s).st ≠ .done := nofun
  exact ⟨clearMessage s, whenHostOwns_owned s _ hown, rfl, rfl, ⟨rfl, nofun⟩,
    fun n => ⟨digO_of_not_done hdone n, hexO_of_not_done hdone n⟩⟩

/-- Settles O14: the gate of the message commands by the status, and the append by the length. -/
theorem ldbAppendsTheByte : Obligations.LdbAppendsTheByte := fun b s => by
  rw [exec_ldb]
  refine ⟨decodeCommand_ldb b, fun hown hlen => ?_, fun hown hlen => ?_, whenHostOwns_busy s _, whenHostOwns_fault s _⟩
  · refine ⟨lengthenMessage { s with msg := s.msg.write s.len b }, ?_, rfl, rfl, Memory.read_write_same _ _ _,
      fun a ha => Memory.read_write_other _ _ _ _ ha⟩
    rw [whenHostOwns_owned s _ hown, appendByte, if_neg hlen.ne, memWrite_of_lt _ _ _ _ hlen]
  · rw [whenHostOwns_owned s _ hown, appendByte, if_pos hlen]
    rfl

/-- Settles O15: the gate of the message commands by the status, and the start of a run. -/
theorem goStartsARun : Obligations.GoStartsARun := by
  refine ⟨decodeCommand_eq_ok_iff.mpr rfl, fun s => ?_⟩
  rw [exec_go]
  exact ⟨fun hown => ⟨startRun s, whenHostOwns_owned s _ hown, rfl, rfl, rfl⟩, whenHostOwns_busy s _,
    whenHostOwns_fault s _⟩

/-! ### Runs without a fault -/

/-- `n` steps lead from `s` to `t`, and none of the states on the way, `s` and `t` among them, is in `FAULT`. -/
def FaultFreeRun (n : Nat) (s t : State) : Prop :=
  (∀ m ≤ n, ∃ u, runSteps m s = .next u ∧ u.st ≠ .fault) ∧ runSteps n s = .next t

theorem faultFreeRun_of_step {s t : State} (h : step s = .next t) (hs : s.st ≠ .fault) (ht : t.st ≠ .fault) :
    FaultFreeRun 1 s t := by
  refine ⟨fun m hm => ?_, runSteps_succ 0 h⟩
  match m, hm with
  | 0, _ => exact ⟨s, rfl, hs⟩
  | 1, _ => exact ⟨t, runSteps_succ 0 h, ht⟩

theorem FaultFreeRun.trans {m n : Nat} {s t u : State} (hst : FaultFreeRun m s t) (htu : FaultFreeRun n t u) :
    FaultFreeRun (m + n) s u := by
  obtain ⟨hpre, hrun⟩ := hst
  refine ⟨fun i hi => ?_, (runSteps_add n hrun).trans htu.2⟩
  rcases le_total i m with him | hmi
  · exact hpre i him
  · obtain ⟨j, rfl⟩ := Nat.exists_eq_add_of_le hmi
    rw [runSteps_add j hrun]
    exact htu.1 j (by omega)

/-! ### The host's program for a digest -/

/-- The assembler's word of `ldb` for a byte is a word of `LDB` (R48). -/
theorem decodeCommand_ldbWord (b : Byte) : decodeCommand (ldbWord b.toNat) = .ok (.ldb b) := by
  rw [decodeCommand_eq_ok_iff, ldbWord_eq_cmdWord (by omega), BitVec.ofNat_toNat, BitVec.setWidth_eq, encode]

/-- The host's moves for the `ldb`s of `S`. -/
def loadMoves (S : List Byte) : List Event := S.map fun b => .host (commandPins (ldbWord b.toNat))

theorem loadMoves_append (S T : List Byte) : loadMoves (S ++ T) = loadMoves S ++ loadMoves T := List.map_append

/-- The program of R84 as a schedule: `clrm`, the `ldb`s, `go`, `wait` (R49). -/
theorem digestProgram_eq (S : List Byte) :
    digestProgram S =
      .host (commandPins 0x200#11) :: (loadMoves S ++ [.host (commandPins 0x400#11), .wait]) := by
  simp [digestProgram, loadMoves, AsmLine.expand, msgActions, scheduleOf, HostAction.events, List.flatMap_map,
    ← List.map_eq_flatMap]

/-- A transaction of `CLRM` while the host owns the message (R80). -/
theorem step_clrm {s : State} {rest : List Event} (hown : s.st = .idle ∨ s.st = .done)
    (hs : s.sched = .host (commandPins 0x200#11) :: rest) : step s = .next (clearMessage { s with sched := rest }) :=
  (step_command hs).trans (whenHostOwns_owned { s with sched := rest } (fun s => .next (clearMessage s)) hown)

theorem ne_fault_of_owned {s : State} (hown : s.st = .idle ∨ s.st = .done) : s.st ≠ .fault := by
  rcases hown with h | h <;> simp [h]

/-- The `ldb`s of a message that fits into the empty buffer take no fault: each beginning of them is the loading of a
beginning of the message. -/
theorem faultFreeRun_load {s : State} {S : List Byte} {rest : List Event} (hown : s.st = .idle ∨ s.st = .done)
    (hempty : HoldsMessage s []) (hcap : S.length ≤ Config.MSG_CAP) (hs : s.sched = loadMoves S ++ rest) :
    ∃ t, FaultFreeRun S.length s t ∧ HoldsMessage t S ∧ (t.st = .idle ∨ t.st = .done) ∧ t.sched = rest := by
  obtain ⟨t, hrun, hm, hst, -, -, hsched⟩ :=
    runSteps_load _ decodeCommand_ldbWord hown hempty (by simpa using hcap) hs
  refine ⟨t, ⟨fun m hm => ?_, hrun⟩, hm, hst, hsched⟩
  have hsplit : s.sched = loadMoves (S.take m) ++ (loadMoves (S.drop m) ++ rest) := by
    rw [hs, ← List.append_assoc, ← loadMoves_append, List.take_append_drop]
  obtain ⟨u, hpre, -, hu, -⟩ := runSteps_load _ decodeCommand_ldbWord hown hempty (by simp; omega) hsplit
  rw [List.length_take_of_le hm] at hpre
  exact ⟨u, hpre, ne_fault_of_owned hu⟩

/-- The run that the host waits for takes no fault: up to its end the status is `BUSY`, then `DONE` (R62). -/
theorem Running.faultFreeRun_of_waiting {S : List Byte} {s : State} {rest : List Event} (hr : Running S s)
    (hs : s.sched = .wait :: rest) : FaultFreeRun (runVariant s) s (completed S s) := by
  obtain ⟨hbefore, hlast⟩ := hr.runSteps_of_waiting (.inl hs)
  refine ⟨fun m hm => ?_, hlast⟩
  rcases hm.lt_or_eq with hlt | rfl
  · obtain ⟨u, hrun, hu⟩ := hbefore m hlt
    exact ⟨u, hrun, by simp [hu.busy]⟩
  · exact ⟨_, hlast, by simp [completed]⟩

/-- The protocol of R84 from `IDLE` or `DONE`: `clrm`, the loading, `go` and the run, each without a fault. -/
theorem faultFreeRun_digestProgram {s : State} {S : List Byte} (hcap : S.length ≤ Config.MSG_CAP)
    (hown : s.st = .idle ∨ s.st = .done) (hs : s.sched = digestProgram S) :
    ∃ t, FaultFreeRun ((S.length + 2) + (8 * S.length + 8)) s (completed S t) ∧ HoldsMessage t S := by
  rw [digestProgram_eq] at hs
  have hclear := faultFreeRun_of_step (step_clrm hown hs) (ne_fault_of_owned hown) (by simp)
  obtain ⟨u, hload, hm, hu, hsched⟩ := faultFreeRun_load (rest := [.host (commandPins 0x400#11), .wait])
    (s := clearMessage { s with sched := _ }) (.inl rfl) ⟨rfl, nofun⟩ hcap rfl
  have hgo := faultFreeRun_of_step (step_go hu hsched) (ne_fault_of_owned hu) (by simp)
  have hwait := (running_startRun (hm.withSched [.wait])).faultFreeRun_of_waiting rfl
  refine ⟨startRun { u with sched := [.wait] }, ?_, hm⟩
  have hcount : (S.length + 2) + (8 * S.length + 8) =
      1 + S.length + 1 + runVariant (startRun { u with sched := [.wait] }) := by
    rw [runVariant_startRun, hm.1]
    omega
  rw [hcount]
  exact ((hclear.trans hload).trans hgo).trans hwait

/-- Settles O54: the protocol runs without a fault from `IDLE` or `DONE`, and `RST` leads to `IDLE` from every state. -/
theorem protocolDeliversTheDigest : Obligations.ProtocolDeliversTheDigest := fun s S hcap => by
  constructor
  · intro hown hs
    obtain ⟨t, ⟨hfree, hend⟩, hm⟩ := faultFreeRun_digestProgram hcap hown hs
    exact ⟨hfree, _, hend, rfl, hm, hexO_completed S t⟩
  · intro hs
    have hrst (n : Nat) : runSteps (1 + n) s = runSteps n (resetRegisters { s with sched := digestProgram S }) := by
      rw [Nat.add_comm, runSteps_succ n (step_command hs)]
    simp only [hrst]
    obtain ⟨t, ⟨hfree, hend⟩, hm⟩ :=
      faultFreeRun_digestProgram (s := resetRegisters { s with sched := digestProgram S }) hcap (.inl rfl) rfl
    exact ⟨hfree, _, hend, rfl, hm, hexO_completed S t⟩

end Sys2Proof.Machine
end

section
/-! SUPPORT. The statements of 60_exceptions.md: who raises a fault and when, what fault entry writes, and what leaves
`FAULT`. -/

namespace Sys2Proof.Machine

/-! ### The commands that pass the gate of R77 -/

/-- A command other than `NOP` and `RST` is one of the three that pass the gate of R77. -/
theorem decodeCommand_isGated {w : CmdWord} {i : Instr} (hw : decodeCommand w = .ok i) (hnop : i ≠ .nop)
    (hrst : i ≠ .rst) : i = .clrm ∨ (∃ b, i = .ldb b) ∨ i = .go := by
  rcases decodeCommand_isCommand w i hw with h | h | h
  · exact absurd h hnop
  · exact absurd h hrst
  · exact h

/-- In `BUSY` each of the three raises `E_BUSY`, before any check of its own (R77, R87). -/
theorem exec_of_busy {i : Instr} {s : State} (hi : i = .clrm ∨ (∃ b, i = .ldb b) ∨ i = .go) (hb : s.st = .busy) :
    exec i s = .next (raiseFault .eBusy s) := by
  rcases hi with rfl | ⟨b, rfl⟩ | rfl
  · rw [exec_clrm, whenHostOwns_busy s _ hb]
  · rw [exec_ldb, whenHostOwns_busy s _ hb]
  · rw [exec_go, whenHostOwns_busy s _ hb]

/-- In `IDLE` and `DONE`, with room in the buffer, each of the three acts without a fault (R80 to R82). -/
theorem exec_of_owned {i : Instr} {s : State} (hi : i = .clrm ∨ (∃ b, i = .ldb b) ∨ i = .go)
    (hown : s.st = .idle ∨ s.st = .done) (hroom : s.len < Config.MSG_CAP) :
    ∃ t, exec i s = .next t ∧ t.ecause = s.ecause ∧ t.st = if i = .go then .busy else .idle := by
  rcases hi with rfl | ⟨b, rfl⟩ | rfl
  · exact ⟨clearMessage s, by rw [exec_clrm, whenHostOwns_owned s _ hown], rfl, rfl⟩
  · obtain ⟨-, hstore, -⟩ := ldbAppendsTheByte b s
    obtain ⟨t, hexec, ht, -⟩ := hstore hown hroom
    exact ⟨t, hexec, ht ▸ ⟨rfl, rfl⟩⟩
  · exact ⟨startRun s, by rw [exec_go, whenHostOwns_owned s _ hown], rfl, rfl⟩

/-! ### The order of the checks -/

/-- In `BUSY` a transaction other than `NOP` and `RST` raises `E_BUSY` if its word decodes, else `E_ILLCMD` (R87). -/
theorem commandStep_raises_of_busy {w : CmdWord} {s : State} (hb : s.st = .busy) (hnop : decodeCommand w ≠ .ok .nop)
    (hrst : decodeCommand w ≠ .ok .rst) :
    commandStep w s = .next (raiseFault (if (decodeCommand w).isOk then .eBusy else .eIllCmd) s) := by
  rcases hw : decodeCommand w with e | i <;> rw [commandStep, hw]
  · exact congrArg _ (illegalCommand_raises s (by simp [hb]))
  · exact exec_of_busy (decodeCommand_isGated hw (fun h => hnop (h ▸ hw)) fun h => hrst (h ▸ hw)) hb

/-- Settles O21: each clause is the command transaction, in `BUSY` by what its word decodes to. -/
theorem faultChecksKeepTheirOrder : Obligations.FaultChecksKeepTheirOrder := fun s w rest hs => by
  rw [step_command hs]
  refine ⟨fun hb => commandStep_raises_of_busy (s := { s with sched := rest }) hb, fun b hb _ hw => ?_,
    fun hf => commandStep_of_fault (s := { s with sched := rest }) hf⟩
  rw [commandStep, hw]
  exact exec_of_busy (s := { s with sched := rest }) (.inr (.inl ⟨b, rfl⟩)) hb

/-! ### The steps into `FAULT` -/

/-- A transaction of the word `w` in `s` is a fault of cause `c`: the list of R85 with its conditions. -/
def Raises (w : CmdWord) (s : State) : Cause → Prop
  | .eNone => False
  | .eIllCmd => ∃ e, decodeCommand w = .error e
  | .eBusy => s.st = .busy ∧
      (decodeCommand w = .ok .clrm ∨ (∃ b, decodeCommand w = .ok (.ldb b)) ∨ decodeCommand w = .ok .go)
  | .eOvf => (s.st = .idle ∨ s.st = .done) ∧ (∃ b, decodeCommand w = .ok (.ldb b)) ∧ s.len = Config.MSG_CAP

theorem Raises.ne_eNone {w : CmdWord} {s : State} {c : Cause} (h : Raises w s c) : c ≠ .eNone := by
  rintro rfl
  exact h

/-- A command that enters `FAULT` raises a fault of the list, and fault entry is all it does (R85, R88). -/
theorem commandStep_enters_fault {w : CmdWord} {s t : State} (h : commandStep w s = .next t) (hs : s.st ≠ .fault)
    (ht : t.st = .fault) : ∃ c, Raises w s c ∧ t = raiseFault c s := by
  rcases commandStep_cases w s t h with
    ⟨rfl, _⟩ | ⟨_, rfl⟩ | ⟨_, hw, rfl⟩ | ⟨hb, hw, rfl⟩ | ⟨hown, ⟨_, rfl⟩ | ⟨b, hw, ⟨hfull, rfl⟩ | ⟨_, rfl⟩⟩ | ⟨_, rfl⟩⟩
  · exact absurd ht hs
  · cases ht
  · exact ⟨.eIllCmd, hw, rfl⟩
  · exact ⟨.eBusy, ⟨hb, hw⟩, rfl⟩
  · cases ht
  · exact ⟨.eOvf, ⟨hown, ⟨b, hw⟩, hfull⟩, rfl⟩
  · cases ht
  · cases ht

/-- A step that enters `FAULT` is a command transaction that does so: neither a turn of the sequencer nor a reset writes
`FAULT`. -/
theorem step_enters_fault {s t : State} (h : step s = .next t) (hs : s.st ≠ .fault) (ht : t.st = .fault) :
    ∃ w rest c, s.sched = .host (commandPins w) :: rest ∧ Raises w s c ∧ t = raiseFault c { s with sched := rest } := by
  rcases hostStep_or_seqStep_of_step h with ⟨⟨rst, valid, w⟩, rest, hsched, hmove⟩ | hturn
  · match rst, valid with
    | true, _ => cases hmove; cases ht
    | false, false => cases hmove; exact absurd ht hs
    | false, true =>
      obtain ⟨c, hraises, rfl⟩ := commandStep_enters_fault hmove hs ht
      exact ⟨w, rest, c, hsched, hraises, rfl⟩
  · rcases seqStep_st_cases hturn with hst | ⟨-, -, -, hfin⟩
    · exact absurd (hst.symm.trans ht) hs
    · rw [hfin] at ht
      cases ht

/-- Settles O22: the step is fault entry, and the flags, the sequencer and the ports follow from `ST = FAULT`. -/
theorem faultEntryWritesStAndEcauseOnly : Obligations.FaultEntryWritesStAndEcauseOnly := fun s t h hs ht => by
  have hbusy : t.st ≠ .busy := by simp [ht]
  have hdone : t.st ≠ .done := by simp [ht]
  obtain ⟨w, rest, c, hsched, hraises, rfl⟩ := step_enters_fault h hs ht
  refine ⟨?_, hraises.ne_eNone, rfl, rfl, rfl, seqStep_of_not_busy hbusy, fun n =>
    ⟨digO_of_not_done hdone n, hexO_of_not_done hdone n⟩⟩
  rw [hsched]
  rfl

/-- Settles O23: the three ways to raise a fault are the three of the list. -/
theorem faultsAreTheThreeListed : Obligations.FaultsAreTheThreeListed := fun s t h hs ht => by
  obtain ⟨w, rest, c, hsched, hraises, rfl⟩ := step_enters_fault h hs ht
  refine ⟨w, rest, hsched, ?_⟩
  match c, hraises with
  | .eIllCmd, hw => exact .inl ⟨rfl, hw⟩
  | .eBusy, hbusy => exact .inr (.inl ⟨rfl, hbusy⟩)
  | .eOvf, ⟨hown, hw, hfull⟩ => exact .inr (.inr ⟨rfl, hown, hw, hfull, hfull⟩)

/-! ### The steps from `FAULT` -/

/-- The pins that leave `FAULT` assert reset or present the one word of `RST` (R41, R89). -/
theorem HostPins.recovers_eq_true_iff (pins : HostPins) :
    pins.recovers = true ↔ pins.rst = true ∨ (pins.cmdValid = true ∧ pins.cmd = 0x100#11) := by
  have hword : decodeCommand pins.cmd = .ok .rst ↔ pins.cmd = 0x100#11 := by
    rw [decodeCommand_eq_ok_iff, encode, FetchWord.cmd.injEq, eq_comm]
    rfl
  simp [HostPins.recovers, hword]

theorem HostPins.recovers_eq_false_iff (pins : HostPins) :
    pins.recovers = false ↔ pins.rst = false ∧ (pins.cmdValid = true → pins.cmd ≠ 0x100#11) := by
  rw [← Bool.not_eq_true, HostPins.recovers_eq_true_iff]
  simp

/-- A reset and an `RST` give the reset values, in any status (R79, R99). -/
theorem hostStep_of_recovers {pins : HostPins} (hrec : pins.recovers = true) (s : State) :
    hostStep pins s = .next (resetRegisters s) := by
  obtain ⟨rst, valid, w⟩ := pins
  rcases (HostPins.recovers_eq_true_iff _).mp hrec with hrst | ⟨hvalid, hword⟩
  · exact if_pos hrst
  · obtain rfl : valid = true := hvalid
    obtain rfl : w = 0x100#11 := hword
    cases rst <;> rfl

/-- Every other host move is ignored in `FAULT` (R90). -/
theorem hostStep_of_fault {pins : HostPins} {s : State} (hf : s.st = .fault) (hrec : pins.recovers = false) :
    hostStep pins s = .next s := by
  obtain ⟨rst, valid, w⟩ := pins
  match rst, valid with
  | true, _ => cases hrec
  | false, false => rfl
  | false, true => exact commandStep_of_fault hf fun hw => by simp [HostPins.recovers, hw] at hrec

/-- In `FAULT` a step that is neither a reset nor an `RST` takes its move off the schedule and changes nothing else
(R58, R90). -/
theorem step_of_fault {s : State} (hf : s.st = .fault)
    (hrec : ∀ pins rest, s.sched = .host pins :: rest → pins.recovers = false) :
    step s = .next { s with sched := s.sched.tail } := by
  obtain ⟨hseq, hwait, hnil⟩ := nothingMovesOutsideBusy s s.sched.tail (by simp [hf])
  rcases hs : s.sched with _ | ⟨pins | _ | _, rest⟩ <;> rw [hs] at hseq hwait hnil
  · rw [hnil rfl, List.tail_nil, ← hs]
  · rw [step_move (.host pins) s rest hs]
    exact hostStep_of_fault (s := { s with sched := rest }) hf (hrec pins rest hs)
  · exact hseq rfl
  · exact hwait rfl

/-- Settles O24: what leaves `FAULT` gives the reset values, and any other step changes nothing. -/
theorem onlyResetLeavesFault : Obligations.OnlyResetLeavesFault := fun s t h hf => by
  by_cases hrec : ∃ pins rest, s.sched = .host pins :: rest ∧ pins.recovers = true
  · obtain ⟨pins, rest, hs, hrec⟩ := hrec
    rw [step_move (.host pins) s rest hs] at h
    cases h.symm.trans (hostStep_of_recovers hrec _)
    exact .inl ⟨pins, rest, hs, (HostPins.recovers_eq_true_iff pins).mp hrec, rfl⟩
  · have hno : ∀ pins rest, s.sched = .host pins :: rest → pins.recovers = false := fun pins rest hs =>
      Bool.eq_false_iff.mpr fun hr => hrec ⟨pins, rest, hs, hr⟩
    cases h.symm.trans (step_of_fault hf hno)
    exact .inr ⟨rfl, fun pins rest hs => (HostPins.recovers_eq_false_iff pins).mp (hno pins rest hs)⟩

/-- Settles O25, by induction on the number of steps: each takes one move off the schedule, and the moves left are moves
of the schedule. -/
theorem faultIsKeptOverAnySchedule : Obligations.FaultIsKeptOverAnySchedule := fun n s hf hsched => by
  induction n generalizing s with
  | zero => exact ⟨s, rfl, rfl⟩
  | succ n ih =>
    have hstep := step_of_fault hf fun pins rest hs =>
      (HostPins.recovers_eq_false_iff pins).mpr (hsched pins (hs ▸ List.mem_cons_self))
    obtain ⟨t, hrun, ht⟩ := ih { s with sched := s.sched.tail } hf fun pins hp => hsched pins (List.mem_of_mem_tail hp)
    exact ⟨t, (runSteps_succ n hstep).trans hrun, by rw [ht, List.drop_tail]⟩

/-! ### A command beside `FIN` -/

/-- The last turn of a run is `FIN` (R57, R61). -/
theorem step_fin {s : State} {rest : List Event} (hs : s.sched = .seq :: rest) (hb : s.st = .busy) (hk : s.len ≤ s.k)
    (hp : s.p = 7) : step s = .next (finishRun { s with sched := rest }) := by
  rw [step_move .seq s rest hs, Move.act, seqStep,
    (decodeSelect_eq_fin_iff { s with sched := rest }).mpr ⟨hb, hk, hp⟩]
  exact exec_fin (s := { s with sched := rest }) hb hk hp

/-- Settles O26: before `FIN` the command meets `BUSY`, and the turn that follows finds `FAULT`; after it the command
acts in `DONE`. -/
theorem commandBesideFinSeesBothOrders : Obligations.CommandBesideFinSeesBothOrders :=
  fun s w i hw hnop hrst hb hk hp hroom => by
  have hi := decodeCommand_isGated hw hnop hrst
  constructor
  · intro hs
    have hfault := stepRunsTheDecodedCommand s w i [.seq] hs hw
    rw [exec_of_busy (s := { s with sched := [.seq] }) hi hb] at hfault
    have hturn := step_of_fault (s := raiseFault .eBusy { s with sched := [.seq] }) rfl nofun
    exact (runSteps_succ 1 hfault).trans (runSteps_succ 0 hturn)
  · intro hs
    obtain ⟨t, hexec, hcause, hst⟩ := exec_of_owned (s := { s with st := .done, sched := [] }) hi (.inr rfl) hroom
    have hcommand := stepRunsTheDecodedCommand (finishRun { s with sched := [.host (commandPins w)] }) w i [] rfl hw
    have hrun : runSteps 2 s = .next t :=
      (runSteps_succ 1 (step_fin hs hb hk.ge hp)).trans (runSteps_succ 0 (hcommand.trans hexec))
    exact ⟨hrun.trans hexec.symm, t, hrun, hcause, hst⟩

end Sys2Proof.Machine
end

section
/-! SUPPORT. The statements of 70_reset_and_hazards.md: the reset event, a next state for every move under the invariants, and
the end of every run. -/

namespace Sys2Proof.Machine

/-! ### The reset event -/

/-- Settles O9: the reset event is one of the moves that give the reset values in any status. -/
theorem resetEventOverridesEverything : Obligations.ResetEventOverridesEverything := fun s pins rest hrst hs => by
  have hrec : pins.recovers = true := (HostPins.recovers_eq_true_iff pins).mpr (.inl hrst)
  exact (step_move (.host pins) s rest hs).trans (hostStep_of_recovers hrec _)

/-! ### No step stops under the invariants -/

/-- Whatever is listed first, the step is a move of an agent or takes a wait off the schedule, and no move stops. -/
theorem step_total {s : State} (hi : Inv s) : ∃ t, step s = .next t := by
  rcases hs : s.sched with _ | ⟨pins | _ | _, rest⟩
  · simpa only [step, hs] using seqStep_total hi
  · exact step_move (.host pins) s rest hs ▸ (Move.host pins).act_total (hi.withSched rest)
  · exact step_move .seq s rest hs ▸ Move.seq.act_total (hi.withSched rest)
  · by_cases hb : s.st = .busy
    · exact step_of_waiting hb (.inl hs) ▸ seqStep_total hi
    · obtain ⟨-, hwait, -⟩ := nothingMovesOutsideBusy s rest hb
      exact ⟨_, hwait hs⟩

/-- Under the invariants a move has a transition exactly where it is enabled (R9, R106). -/
theorem exists_transition_iff {s : State} (hi : Inv s) (m : Move) :
    (∃ t, Transition (some m) s t) ↔ m.enabled s = true :=
  ⟨fun ⟨_, henabled, _⟩ => henabled, fun henabled => (m.act_total hi).imp fun _ hact => ⟨henabled, hact⟩⟩

/-- Settles O30: the host's moves are enabled in every state, the sequencer's exactly in `BUSY`, and none stops. -/
theorem stepNeverStopsUnderTheInvariants : Obligations.StepNeverStopsUnderTheInvariants := fun s hi =>
  ⟨step_total hi, fun pins => (exists_transition_iff hi (.host pins)).mpr rfl,
    (exists_transition_iff hi .seq).trans s.busy_eq_true⟩

/-! ### Runs under any schedule -/

/-- A run never has more left than a whole one (R62). -/
theorem runVariant_le (s : State) : runVariant s ≤ 8 * s.len + 8 := by
  have hpasses : (7 - s.p.val) * (s.len + 1) ≤ 7 * (s.len + 1) := Nat.mul_le_mul_right _ (Nat.sub_le 7 _)
  rw [runVariant]
  omega

/-- A turn of the sequencer in a run takes one from the variant, or ends the run in `DONE`. -/
theorem seqStep_of_busy {s t : State} (hi : Inv s) (hb : s.st = .busy) (h : seqStep s = .next t) :
    (t.st = .busy ∧ runVariant t + 1 = runVariant s) ∨ t.st = .done := by
  obtain ⟨-, u, hu, hcases⟩ := runVariantFallsByOne s hi hb
  obtain rfl : u = t := Host.Outcome.next.inj (hu.symm.trans h)
  exact hcases.imp_right And.left

/-- A move of the host after which the run goes on changes nothing (R77). -/
theorem eq_of_hostStep_of_busy {pins : HostPins} {s t : State} (hb : s.st = .busy) (h : hostStep pins s = .next t)
    (ht : t.st = .busy) : t = s := by
  rcases hostStep_of_busy hb h with rfl | ⟨c, rfl⟩ | ⟨-, rfl⟩
  · rfl
  · cases ht
  · cases ht

/-- A turn of the sequencer after which the run goes on takes one from the variant and keeps the schedule. -/
theorem runVariant_of_seqStep {s t : State} (hi : Inv s) (hb : s.st = .busy) (h : seqStep s = .next t) (ht : t.st = .busy) :
    runVariant t + 1 = runVariant s ∧ t.sched = s.sched := by
  obtain ⟨hsched, -⟩ := seqStep_withSched s t [] h
  rcases seqStep_of_busy hi hb h with ⟨-, hv⟩ | hdone
  · exact ⟨hv, hsched⟩
  · cases hdone.symm.trans ht

/-- A step after which the run goes on: the host's move is taken off the schedule, the sequencer's turn is, or the host
waits or is silent and the sequencer moves beside it. Each turn takes one from the variant. -/
theorem step_of_busy {s t : State} (hi : Inv s) (hb : s.st = .busy) (h : step s = .next t) (ht : t.st = .busy) :
    (∃ pins, s.sched = .host pins :: t.sched ∧ runVariant t = runVariant s) ∨
    (s.sched = .seq :: t.sched ∧ runVariant t + 1 = runVariant s) ∨
    ((s.sched = [] ∨ .wait ∈ s.sched) ∧ t.sched = s.sched ∧ runVariant t + 1 = runVariant s) := by
  rcases hs : s.sched with _ | ⟨pins | _ | _, rest⟩
  · rw [step_of_waiting (rest := []) hb (.inr hs)] at h
    obtain ⟨hv, hsched⟩ := runVariant_of_seqStep hi hb h ht
    exact .inr (.inr ⟨.inl rfl, hsched.trans hs, hv⟩)
  · rw [step_move (.host pins) s rest hs] at h
    obtain rfl := eq_of_hostStep_of_busy (s := { s with sched := rest }) hb h ht
    exact .inl ⟨pins, rfl, rfl⟩
  · rw [step_move .seq s rest hs] at h
    obtain ⟨hv, hsched⟩ := runVariant_of_seqStep (hi.withSched rest) hb h ht
    exact .inr (.inl ⟨by rw [hsched], hv⟩)
  · rw [step_of_waiting hb (.inl hs)] at h
    obtain ⟨hv, hsched⟩ := runVariant_of_seqStep hi hb h ht
    exact .inr (.inr ⟨.inr List.mem_cons_self, hsched.trans hs, hv⟩)

/-- A run ends within `n` steps if some property of its states keeps a measure positive and lets every step that does not
end the run lower it, and the measure is at most `n`. -/
theorem exists_end_of_measure {P : State → Prop} {μ : State → Nat} (hpos : ∀ s, P s → 0 < μ s)
    (hfall : ∀ s t, Inv s → s.st = .busy → P s → step s = .next t → t.st = .busy → P t ∧ μ t < μ s)
    {n : Nat} {s : State} (hi : Inv s) (hb : s.st = .busy) (hP : P s) (hn : μ s ≤ n) :
    ∃ m t, m ≤ n ∧ runSteps m s = .next t ∧ t.st ≠ .busy := by
  induction n generalizing s with
  | zero => exact absurd hn (hpos s hP).not_ge
  | succ n ih =>
    obtain ⟨u, hu⟩ := step_total hi
    by_cases hub : u.st = .busy
    · obtain ⟨hPu, hlt⟩ := hfall s u hi hb hP hu hub
      obtain ⟨m, t, hm, hrun, ht⟩ := ih (stepKeepsTheInvariants s u hi hu) hub hPu (by omega)
      exact ⟨m + 1, t, by omega, (runSteps_succ m hu).trans hrun, ht⟩
    · exact ⟨1, u, by omega, runSteps_succ 0 hu, hub⟩

/-- Under any schedule: every step in the run uses a listed move or a turn of the variant. -/
theorem exists_end_of_busy {s : State} (hi : Inv s) (hb : s.st = .busy) :
    ∃ m t, m ≤ s.sched.length + runVariant s ∧ runSteps m s = .next t ∧ t.st ≠ .busy := by
  refine exists_end_of_measure (P := fun _ => True) (μ := fun s => s.sched.length + runVariant s)
    (fun s _ => Nat.add_pos_right _ (runVariant_pos s)) (fun s t hi hb _ h ht => ⟨trivial, ?_⟩) hi hb trivial le_rfl
  rcases step_of_busy hi hb h ht with ⟨pins, hs, hv⟩ | ⟨hs, hv⟩ | ⟨-, hs, hv⟩
  · simp only [hs, hv, List.length_cons]; omega
  · simp only [hs, List.length_cons]; omega
  · simp only [hs]; omega

/-- The schedule of `s` has no wait and gives the sequencer as many turns as the variant. -/
def TurnsEnough (s : State) : Prop := .wait ∉ s.sched ∧ runVariant s ≤ seqTurns s.sched

theorem TurnsEnough.length_pos {s : State} (hturns : TurnsEnough s) : 0 < s.sched.length :=
  (runVariant_pos s).trans_le (hturns.2.trans List.count_le_length)

/-- A step after which the run goes on takes a move off such a schedule, and turns enough are left. -/
theorem TurnsEnough.of_step {s t : State} (hturns : TurnsEnough s) (hi : Inv s) (hb : s.st = .busy) (h : step s = .next t)
    (ht : t.st = .busy) : TurnsEnough t ∧ t.sched.length < s.sched.length := by
  have hpos := hturns.length_pos
  obtain ⟨hwait, hv⟩ := hturns
  rcases step_of_busy hi hb h ht with ⟨pins, hs, hvt⟩ | ⟨hs, hvt⟩ | ⟨hs | hs, -⟩
  · rw [hs] at hwait hv ⊢
    exact ⟨⟨List.not_mem_of_not_mem_cons hwait, by simpa [seqTurns, hvt] using hv⟩, Nat.lt_succ_self _⟩
  · rw [hs] at hwait hv ⊢
    have hcount : seqTurns (.seq :: t.sched) = seqTurns t.sched + 1 := List.count_cons_self
    exact ⟨⟨List.not_mem_of_not_mem_cons hwait, by omega⟩, Nat.lt_succ_self _⟩
  · simp [hs] at hpos
  · exact absurd hs hwait

/-- With turns enough listed, the run ends within the schedule. -/
theorem TurnsEnough.exists_end {s : State} (hturns : TurnsEnough s) (hi : Inv s) (hb : s.st = .busy) :
    ∃ m t, m ≤ s.sched.length ∧ runSteps m s = .next t ∧ t.st ≠ .busy :=
  exists_end_of_measure (fun _ => TurnsEnough.length_pos) (fun _ _ hi hb hturns => hturns.of_step hi hb) hi hb hturns le_rfl

/-! ### Runs in any weakly fair execution -/

/-- The move `m` to `t` ends a run in one of the three ways of R106. -/
def EndsRun (m : Option Move) (t : State) : Prop :=
  (m = some .seq ∧ t.st = .done) ∨
  (∃ pins, m = some (.host pins) ∧ (t.st = .fault ∨ (pins.recovers = true ∧ t.st = .idle)))

/-- The number of steps of `SEQ` in one move. -/
def seqStepsOf (m : Option Move) : Nat := if m = some .seq then 1 else 0

/-- A transition in a run: the run goes on, the variant less one for a step of `SEQ`, or it ends. -/
theorem transition_of_busy {m : Option Move} {s t : State} (hi : Inv s) (hb : s.st = .busy) (h : Transition m s t) :
    (t.st = .busy ∧ seqStepsOf m + runVariant t = runVariant s) ∨ EndsRun m t := by
  match m, h with
  | none, h =>
    obtain rfl : t = s := h
    exact .inl ⟨hb, Nat.zero_add _⟩
  | some .seq, ⟨_, h⟩ =>
    exact (seqStep_of_busy hi hb h).imp (fun ⟨ht, hv⟩ => ⟨ht, (Nat.add_comm _ _).trans hv⟩) fun hd => .inl ⟨rfl, hd⟩
  | some (.host pins), ⟨_, h⟩ =>
    rcases hostStep_of_busy hb h with rfl | ⟨c, rfl⟩ | ⟨hrec, rfl⟩
    · exact .inl ⟨hb, Nat.zero_add _⟩
    · exact .inr (.inr ⟨pins, rfl, .inl rfl⟩)
    · exact .inr (.inr ⟨pins, rfl, .inr ⟨hrec, rfl⟩⟩)

theorem EndsRun.ne_busy {m : Option Move} {t : State} (h : EndsRun m t) : t.st ≠ .busy := by
  rcases h with ⟨-, ht⟩ | ⟨pins, -, ht | ⟨-, ht⟩⟩ <;> simp [ht]

theorem seqStepsBetween_self (move : Nat → Option Move) (n : Nat) : seqStepsBetween move n n = 0 := by
  simp [seqStepsBetween]

theorem seqStepsBetween_succ (move : Nat → Option Move) {n m : Nat} (hnm : n ≤ m) :
    seqStepsBetween move n (m + 1) = seqStepsBetween move n m + seqStepsOf (move m) := by
  obtain ⟨d, rfl⟩ := Nat.exists_eq_add_of_le hnm
  rw [seqStepsBetween, seqStepsBetween, Nat.add_assoc, Nat.add_sub_cancel_left, Nat.add_sub_cancel_left,
    List.range'_1_concat, List.filter_append, List.length_append, seqStepsOf]
  by_cases hm : move (n + d) = some .seq <;> simp [hm]

section
variable {state : Nat → State} {move : Nat → Option Move} {n : Nat}

/-- Up to any point of a run, the steps of `SEQ` so far and the variant make up the variant at the start (R62). -/
theorem seqStepsBetween_add_runVariant (he : IsExecution state move) (hi : Inv (state 0)) {m : Nat} (hnm : n ≤ m)
    (hbusy : ∀ i, n ≤ i → i ≤ m → (state i).st = .busy) :
    seqStepsBetween move n m + runVariant (state m) = runVariant (state n) := by
  induction m, hnm using Nat.le_induction with
  | base => rw [seqStepsBetween_self, Nat.zero_add]
  | succ m hnm ih =>
    have hsofar := ih fun i hni him => hbusy i hni (by omega)
    rcases transition_of_busy (inv_execution he hi m) (hbusy m hnm (by omega)) (he m) with ⟨-, hv⟩ | hend
    · rw [seqStepsBetween_succ move hnm]
      omega
    · exact absurd (hbusy (m + 1) (by omega) le_rfl) hend.ne_busy

/-- In a weakly fair execution no run goes on for ever (R106): `SEQ` would move again and again, and the variant falls. -/
theorem exists_not_busy (he : IsExecution state move) (hf : WeaklyFair state move) (hi : Inv (state 0)) :
    ∃ m, n ≤ m ∧ (state m).st ≠ .busy := by
  induction hv : runVariant (state n) using Nat.strong_induction_on generalizing n with
  | _ v ih =>
    by_contra! hbusy
    obtain ⟨M, hnM, hM⟩ := hf ⟨n, hbusy⟩ n
    have hsum := seqStepsBetween_add_runVariant he hi (m := M + 1) (by omega) fun i hni _ => hbusy i hni
    rw [seqStepsBetween_succ move hnM, hM, seqStepsOf, if_pos rfl, hv] at hsum
    obtain ⟨m, hMm, hm⟩ := ih (runVariant (state (M + 1))) (by omega) rfl
    exact hm (hbusy m (by omega))

/-- In a weakly fair execution a run has a last point, and the move from there ends it (R106). -/
theorem exists_last_busy (he : IsExecution state move) (hf : WeaklyFair state move) (hi : Inv (state 0))
    (hb : (state n).st = .busy) :
    ∃ m, n ≤ m ∧ (∀ i, n ≤ i → i ≤ m → (state i).st = .busy) ∧ EndsRun (move m) (state (m + 1)) := by
  classical
  have hex := exists_not_busy (n := n) he hf hi
  obtain ⟨hnm, hend⟩ := Nat.find_spec hex
  have hbefore : ∀ i, n ≤ i → i < Nat.find hex → (state i).st = .busy := fun i hni hi =>
    not_not.mp fun hnot => Nat.find_min hex hi ⟨hni, hnot⟩
  generalize Nat.find hex = e at hnm hend hbefore
  cases hnm with
  | refl => exact absurd hb hend
  | @step m hnm =>
    refine ⟨m, hnm, fun i hni him => hbefore i hni (Nat.lt_succ_of_le him), ?_⟩
    rcases transition_of_busy (inv_execution he hi m) (hbefore m hnm (Nat.lt_succ_self m)) (he m) with ⟨ht, -⟩ | h
    · exact absurd ht hend
    · exact h

/-- Up to its end a run takes at most as many steps of `SEQ` as its variant (R62). -/
theorem seqStepsBetween_le_runVariant (he : IsExecution state move) (hi : Inv (state 0)) {m : Nat} (hnm : n ≤ m)
    (hbusy : ∀ i, n ≤ i → i ≤ m → (state i).st = .busy) : seqStepsBetween move n (m + 1) ≤ runVariant (state n) := by
  have hone : seqStepsOf (move m) ≤ 1 := by
    rw [seqStepsOf]
    split <;> omega
  rw [seqStepsBetween_succ move hnm, ← seqStepsBetween_add_runVariant he hi hnm hbusy]
  exact Nat.add_le_add_left (hone.trans (runVariant_pos _)) _

end

/-- Settles O57: under a schedule by a measure that every step lowers, in an execution by the variant, which bounds the
steps of `SEQ` in the run. -/
theorem everyRunEnds : Obligations.EveryRunEnds := by
  refine ⟨fun s => exists_end_of_busy, fun s hi hb hwait hv => TurnsEnough.exists_end ⟨hwait, hv⟩ hi hb,
    fun state move he hf hi n hb => ?_⟩
  obtain ⟨m, hnm, hbusy, hend⟩ := exists_last_busy he hf hi hb
  exact ⟨m, hnm, hbusy, (seqStepsBetween_le_runVariant he hi hnm hbusy).trans (runVariant_le _), hend⟩

end Sys2Proof.Machine
end
